-- ==== Sys2Proof/Word.lean ====
section
/-! DEFINITION. The word types of the RandomIO Stream Engine (spec 00_scope.md rules R8 to R12).
A byte string is a `List Byte`, its first byte first in time and lowest in address (R12); a register
or block that the spec draws as a row of bytes is one bit vector whose most significant byte is byte 0,
because `‖` puts its left operand first: most significant for bits, earliest for bytes (R11). -/

namespace Sys2Proof

/-- Eight bits (R12). -/
abbrev Byte := BitVec 8

/-- A 32-bit word of the key schedule (R233) or of SHA-256 (R251). -/
abbrev Word32 := BitVec 32

/-- One buffered unit, or one 64-bit operand (R8, R81). -/
abbrev Word64 := BitVec 64

/-- One cipher block or counter block, 16 bytes (R8). -/
abbrev Block := BitVec 128

/-- The cipher key, 32 bytes (R8). -/
abbrev Key := BitVec 256

/-- A command word, 144 bits: `op mod A B` (R81). -/
abbrev CommandWord := BitVec 144

/-- A response word, 72 bits: `status value` (R88). -/
abbrev ResponseWord := BitVec 72

end Sys2Proof
end

