-- ==== Sys2Proof/Machine/Bytes.lean ====
section
/-! DEFINITION. Byte order (spec 00_scope.md rule R12, 20_memory.md rule R63): everything is big-endian. -/

namespace Sys2Proof.Machine

/-- `BE_n(v)`: the `n` bytes of the integer `v`, most significant first (R12). -/
def be : Nat → Nat → List Byte
  | 0, _ => []
  | n + 1, v => BitVec.ofNat 8 (v / 256 ^ n) :: be n v

/-- The integer that a big-endian byte string encodes, the inverse of `be` (R12, R251). -/
def ofBe (bs : List Byte) : Nat :=
  bs.foldl (fun v b => v * 256 + b.toNat) 0

/-- Byte `i` of a 32-bit word, byte 0 the most significant (R233, R251). -/
def wordByte (w : Word32) (i : Nat) : Byte :=
  w.extractLsb' (8 * (3 - i)) 8

/-- The word of four bytes, the first the most significant (R233, R251). -/
def wordOfBytes (b0 b1 b2 b3 : Byte) : Word32 :=
  b0 ++ b1 ++ b2 ++ b3

/-- Byte `j` of a 16-byte block, byte 0 the most significant (R63 (b)). -/
def blockByte (b : Block) (j : Nat) : Byte :=
  b.extractLsb' (8 * (15 - j)) 8

/-- One half of a block: bytes 0..7 for `half = 0`, bytes 8..15 for `half = 1` (R20, R133). -/
def blockHalf (b : Block) (half : Bool) : Word64 :=
  if half then b.extractLsb' 0 64 else b.extractLsb' 64 64

end Sys2Proof.Machine
end

