-- ==== Sys2Proof/Config.lean ====
section
/-! DEFINITION. What an implementation fixes (spec 00_scope.md rules R8, R9) and the free values: the
things the spec calls any value, a draw, or unspecified (93_implementation_defined.md U6, U7, U8). A free
value is an opaque constant without a body, so no proof can see what it is. -/

namespace Sys2Proof

/-- The sink's answer to one `SinkWrite` (R212): the whole chunk was accepted, or the write failed. -/
inductive SinkAnswer where
  | ok
  | fail
  deriving DecidableEq, Repr, Inhabited

/-- `BLOCK_SIZE`, bytes in one cipher block (R8). -/
def Config.blockSize : Nat := 16

/-- `UNIT`, the granularity of the buffer and of `READ_RAW`, in bytes (R8). -/
def Config.unitSize : Nat := 8

/-- `KEY_SIZE`, bytes in the key (R8). -/
def Config.keySize : Nat := 32

/-- `CTR_INIT`, the first counter value (R8; the spec's decision D2 over its source, log entry 1). -/
def Config.ctrInit : Nat := 0

/-- `OFFSET_MAX`, the largest legal position: 2^63 − 1 (R9, D4). -/
def Config.offsetMax : Nat := 2 ^ 63 - 1

/-- `DUMP_CHUNK`, the most bytes of one `SinkWrite` (R9, D17). -/
def Config.dumpChunk : Nat := 65536

/-- `SEED_LEN_MAX`, the longest seed in bytes: 2^61 − 1 (R9, R252, D20). -/
def Config.seedLenMax : Nat := 2 ^ 61 - 1

/-- The byte that arrives on `seed_in` when the host has not placed it in the state beforehand: any value
(R80; log entry 5). -/
opaque Config.freeSeedByte : Nat → Byte

/-- The byte that arrives on `rnd_in` when it has not been placed in the state beforehand: any value
(R114, U7; log entry 5). -/
opaque Config.freeRndByte : Nat → Byte

/-- The sink's answer when it has not been placed in the state beforehand: any value (R212, U8; log entry 5). -/
opaque Config.freeSinkAnswer : Nat → SinkAnswer

/-- `key` after a reset: any value (R37, U6; log entry 4). -/
opaque Config.freeKey : Nat → Key

/-- `ctr` after a reset: any value (R37, U6; log entry 4). -/
opaque Config.freeCtr : Nat → Block

/-- `half` after a reset: any value (R37, U6; log entry 4). -/
opaque Config.freeHalf : Nat → Bool

/-- `buf` after a reset: any value (R37, U6; log entry 4). -/
opaque Config.freeBuf : Nat → Word64

/-- `buf_len` after a reset: any value (R37, U6; log entry 4). -/
opaque Config.freeBufLen : Nat → BitVec 4

/-- `buf_pos` after a reset: any value (R37, U6; log entry 4). -/
opaque Config.freeBufPos : Nat → BitVec 4

/-- `offset` after a reset: any value (R37, U6; log entry 4). -/
opaque Config.freeOffset : Nat → Word64

/-- `max_valid` after a reset: any value (R37, U6; log entry 4). -/
opaque Config.freeMaxValid : Nat → Bool

/-- `max_size` after a reset: any value (R37, U6; log entry 4). -/
opaque Config.freeMaxSize : Nat → Word64

end Sys2Proof
end

