-- ==== Sys2Proof/Syntax.lean ====
section
/-! DEFINITION. The command set (spec 30_encoding.md rules R83 to R85, R91): one constructor for each of the
twelve encodings of the opcode table. Operands are the integers the spec computes with (R10, R85): sizes,
lengths and bounds are natural numbers, seek operands are signed. -/

namespace Sys2Proof

/-- `whence` (R84): start-relative, current-relative, end-relative. -/
inductive Whence where
  | set
  | cur
  | fromEnd
  deriving DecidableEq, Repr

/-- A command (R4, R83). -/
inductive Instr where
  /-- `INIT.RND`: no seed, no bound. -/
  | initRnd
  /-- `INIT.SEED`: a seed of `seedLen` bytes on `seed_in`, no bound. -/
  | initSeed (seedLen : Nat)
  /-- `INIT.RND.MAX`: no seed, a bound. -/
  | initRndMax (maxSize : Nat)
  /-- `INIT.SEED.MAX`: a seed and a bound. -/
  | initSeedMax (seedLen maxSize : Nat)
  /-- `READ.ALL`: `READ` with the size omitted. -/
  | readAll
  /-- `READ`: `READ` with a size. -/
  | read (size : Nat)
  /-- `SEEK.SET`: to `target` from the start. -/
  | seekSet (target : Int)
  /-- `SEEK.CUR`: by `target` from the current position. -/
  | seekCur (target : Int)
  /-- `SEEK.END`: `target` bytes back from the bound. -/
  | seekEnd (target : Int)
  /-- `TELL`. -/
  | tell
  /-- `DUMP.ALL`: `DUMP` with the size omitted. -/
  | dumpAll
  /-- `DUMP`: `DUMP` with a size. -/
  | dump (size : Nat)
  deriving DecidableEq, Repr

end Sys2Proof
end

