-- ==== Sys2Proof/WellFormed.lean ====
section
/-! DEFINITION. Which commands have an encoding: each operand lies in the range its 64-bit field can carry
(spec 00_scope.md rule R9, 30_encoding.md rules R85, R91). -/

namespace Sys2Proof

/-- A size, length or bound fits an unsigned field of `SIZE_W = 64` bits (R9, R91). -/
def fitsUnsigned (n : Nat) : Bool :=
  decide (n < 2 ^ 64)

/-- A seek operand fits a two's-complement field of `SEEK_W = 64` bits (R9, R91). -/
def fitsSigned (t : Int) : Bool :=
  decide (-2 ^ 63 ≤ t ∧ t < 2 ^ 63)

/-- The command has an encoding (R85, R91). -/
def Instr.wellFormed : Instr → Bool
  | .initRnd => true
  | .initSeed seedLen => fitsUnsigned seedLen
  | .initRndMax maxSize => fitsUnsigned maxSize
  | .initSeedMax seedLen maxSize => fitsUnsigned seedLen && fitsUnsigned maxSize
  | .readAll => true
  | .read size => fitsUnsigned size
  | .seekSet target => fitsSigned target
  | .seekCur target => fitsSigned target
  | .seekEnd target => fitsSigned target
  | .tell => true
  | .dumpAll => true
  | .dump size => fitsUnsigned size

end Sys2Proof
end

