-- ==== Sys2Proof/Decode.lean ====
section
/-! DEFINITION. Decoding and encoding of command words (spec 30_encoding.md rules R81 to R87). -/

namespace Sys2Proof

/-- Why a word is reserved (R87), or why a byte string is no command word at all (R82). -/
inductive Reject where
  /-- `op` is not one of `0x01 .. 0x05`. -/
  | unassignedOpcode
  /-- An unlisted `mod` bit is 1. -/
  | unlistedModBit
  /-- `op = SEEK` and `whence = 3`. -/
  | reservedWhence
  /-- A field the command does not use is nonzero (R86). -/
  | unusedFieldNonzero
  /-- Not 18 bytes (R82). -/
  | notEighteenBytes
  deriving DecidableEq, Repr

/-- The word of four fields, `op` on top (R81). -/
def commandWord (op mod : Byte) (a b : Word64) : CommandWord :=
  op ++ mod ++ a ++ b

/-- Field `op`, bits 143:136 (R81). -/
def fieldOp (w : CommandWord) : Byte := w.extractLsb' 136 8

/-- Field `mod`, bits 135:128 (R81). -/
def fieldMod (w : CommandWord) : Byte := w.extractLsb' 128 8

/-- Field `A`, bits 127:64 (R81). -/
def fieldA (w : CommandWord) : Word64 := w.extractLsb' 64 64

/-- Field `B`, bits 63:0 (R81). -/
def fieldB (w : CommandWord) : Word64 := w.extractLsb' 0 64

/-- `INIT`: `mod` bit 0 is `SEED`, bit 1 is `MAX`; an absent operand's field is zero (R84, R86). -/
def decodeInit (mod : Byte) (a b : Word64) : Except Reject Instr :=
  if mod &&& 0xfc#8 ≠ 0#8 then .error .unlistedModBit
  else match mod.getLsbD 0, mod.getLsbD 1 with
    | false, false => if a ≠ 0 ∨ b ≠ 0 then .error .unusedFieldNonzero else .ok .initRnd
    | true, false => if b ≠ 0 then .error .unusedFieldNonzero else .ok (.initSeed a.toNat)
    | false, true => if a ≠ 0 then .error .unusedFieldNonzero else .ok (.initRndMax b.toNat)
    | true, true => .ok (.initSeedMax a.toNat b.toNat)

/-- `READ`: `mod` bit 0 is `SZ`; `B` is unused, and `A` too when the size is omitted (R84, R86). -/
def decodeRead (mod : Byte) (a b : Word64) : Except Reject Instr :=
  if mod &&& 0xfe#8 ≠ 0#8 then .error .unlistedModBit
  else if b ≠ 0 then .error .unusedFieldNonzero
  else if mod.getLsbD 0 then .ok (.read a.toNat)
  else if a ≠ 0 then .error .unusedFieldNonzero else .ok .readAll

/-- `SEEK`: `mod[1:0]` is `whence`, 3 reserved; `A` is signed, `B` unused (R84, R85, R86). -/
def decodeSeek (mod : Byte) (a b : Word64) : Except Reject Instr :=
  if mod &&& 0xfc#8 ≠ 0#8 then .error .unlistedModBit
  else if mod = 3#8 then .error .reservedWhence
  else if b ≠ 0 then .error .unusedFieldNonzero
  else if mod = 0#8 then .ok (.seekSet a.toInt)
  else if mod = 1#8 then .ok (.seekCur a.toInt)
  else .ok (.seekEnd a.toInt)

/-- `TELL`: everything but `op` is zero (R84, R86). -/
def decodeTell (mod : Byte) (a b : Word64) : Except Reject Instr :=
  if mod ≠ 0#8 then .error .unlistedModBit
  else if a ≠ 0 ∨ b ≠ 0 then .error .unusedFieldNonzero
  else .ok .tell

/-- `DUMP`: as `READ` (R84, R86). -/
def decodeDump (mod : Byte) (a b : Word64) : Except Reject Instr :=
  if mod &&& 0xfe#8 ≠ 0#8 then .error .unlistedModBit
  else if b ≠ 0 then .error .unusedFieldNonzero
  else if mod.getLsbD 0 then .ok (.dump a.toNat)
  else if a ≠ 0 then .error .unusedFieldNonzero else .ok .dumpAll

/-- The command of four fields (R83). -/
def decodeFields (op mod : Byte) (a b : Word64) : Except Reject Instr :=
  if op = 0x01#8 then decodeInit mod a b
  else if op = 0x02#8 then decodeRead mod a b
  else if op = 0x03#8 then decodeSeek mod a b
  else if op = 0x04#8 then decodeTell mod a b
  else if op = 0x05#8 then decodeDump mod a b
  else .error .unassignedOpcode

/-- The command a word encodes, or why it is reserved (R83 to R87). -/
def decode (w : CommandWord) : Except Reject Instr :=
  decodeFields (fieldOp w) (fieldMod w) (fieldA w) (fieldB w)

/-- The word that 18 bytes carry, most significant byte first (R82). -/
def wordOfCommandBytes (bs : List Byte) : CommandWord :=
  BitVec.ofNat 144 (Machine.ofBe bs)

/-- The command of a byte string: 18 bytes, byte 0 `op`, byte 1 `mod`, then `A` and `B` big-endian (R82). -/
def decodeBytes (bs : List Byte) : Except Reject Instr :=
  if bs.length = 18 then decode (wordOfCommandBytes bs) else .error .notEighteenBytes

/-- The word of a command (R81 to R85), meant for a well-formed one. -/
def encode : Instr → CommandWord
  | .initRnd => commandWord 0x01 0x00 0 0
  | .initSeed seedLen => commandWord 0x01 0x01 (BitVec.ofNat 64 seedLen) 0
  | .initRndMax maxSize => commandWord 0x01 0x02 0 (BitVec.ofNat 64 maxSize)
  | .initSeedMax seedLen maxSize => commandWord 0x01 0x03 (BitVec.ofNat 64 seedLen) (BitVec.ofNat 64 maxSize)
  | .readAll => commandWord 0x02 0x00 0 0
  | .read size => commandWord 0x02 0x01 (BitVec.ofNat 64 size) 0
  | .seekSet target => commandWord 0x03 0x00 (BitVec.ofInt 64 target) 0
  | .seekCur target => commandWord 0x03 0x01 (BitVec.ofInt 64 target) 0
  | .seekEnd target => commandWord 0x03 0x02 (BitVec.ofInt 64 target) 0
  | .tell => commandWord 0x04 0x00 0 0
  | .dumpAll => commandWord 0x05 0x00 0 0
  | .dump size => commandWord 0x05 0x01 (BitVec.ofNat 64 size) 0

/-- The 18 bytes of a command (R82). -/
def encodeBytes (i : Instr) : List Byte :=
  Machine.be 18 (encode i).toNat

/-- A row of the opcode table: a word `w` selects it when `(w AND mask) = pattern` (R87). -/
structure OpcodeRow where
  mask : CommandWord
  pattern : CommandWord
  deriving DecidableEq, Repr

/-- The word selects the row (R87). -/
def OpcodeRow.selects (r : OpcodeRow) (w : CommandWord) : Bool :=
  w &&& r.mask == r.pattern

/-- The row of `spec/opcode_table.json` that a command stands in. -/
def opcodeRow : Instr → OpcodeRow
  | .initRnd => ⟨0xffffffffffffffffffffffffffffffffffff, 0x010000000000000000000000000000000000⟩
  | .initSeed _ => ⟨0xffff0000000000000000ffffffffffffffff, 0x010100000000000000000000000000000000⟩
  | .initRndMax _ => ⟨0xffffffffffffffffffff0000000000000000, 0x010200000000000000000000000000000000⟩
  | .initSeedMax _ _ => ⟨0xffff00000000000000000000000000000000, 0x010300000000000000000000000000000000⟩
  | .readAll => ⟨0xffffffffffffffffffffffffffffffffffff, 0x020000000000000000000000000000000000⟩
  | .read _ => ⟨0xffff0000000000000000ffffffffffffffff, 0x020100000000000000000000000000000000⟩
  | .seekSet _ => ⟨0xffff0000000000000000ffffffffffffffff, 0x030000000000000000000000000000000000⟩
  | .seekCur _ => ⟨0xffff0000000000000000ffffffffffffffff, 0x030100000000000000000000000000000000⟩
  | .seekEnd _ => ⟨0xffff0000000000000000ffffffffffffffff, 0x030200000000000000000000000000000000⟩
  | .tell => ⟨0xffffffffffffffffffffffffffffffffffff, 0x040000000000000000000000000000000000⟩
  | .dumpAll => ⟨0xffffffffffffffffffffffffffffffffffff, 0x050000000000000000000000000000000000⟩
  | .dump _ => ⟨0xffff0000000000000000ffffffffffffffff, 0x050100000000000000000000000000000000⟩

/-- The twelve rows, in the table's order (R87). -/
def opcodeTable : List OpcodeRow :=
  [opcodeRow .initRnd, opcodeRow (.initSeed 0), opcodeRow (.initRndMax 0), opcodeRow (.initSeedMax 0 0),
   opcodeRow .readAll, opcodeRow (.read 0), opcodeRow (.seekSet 0), opcodeRow (.seekCur 0),
   opcodeRow (.seekEnd 0), opcodeRow .tell, opcodeRow .dumpAll, opcodeRow (.dump 0)]

/-- The word of a table row's bits: bit 0 is the least significant bit of the one 144-bit word, and every
bit from `nbits` up is 0. -/
def tableWord (nbits w : Nat) : CommandWord :=
  BitVec.ofNat 144 (w % 2 ^ nbits)

/-- The command the decoder reads from an instruction whose bits are `w`, numbered as the opcode table
numbers them. -/
def decodeTableWord (nbits w : Nat) : Option Instr :=
  (decode (tableWord nbits w)).toOption

end Sys2Proof
end

