-- ==== Sys2Proof/Machine/State.lean ====
section
/-! DEFINITION. The state of the engine: the ten registers of spec 10_state.md rule R20, and, as the model's
own fields, what stands on the six ports of 30_encoding.md rule R80 and a counter of free values (R30 says
these are inputs of the step, and the one step of this model is a function of the state alone; log entries
5, 6, 7). -/

namespace Sys2Proof.Machine

/-- `status` of a response (R88, R270). -/
inductive Status where
  | ok
  | invalidArgument
  | invalidOperation
  | ioFailure
  | notReady
  | reservedCommand
  deriving DecidableEq, Repr

/-- A response: `status` and `value` (R88). -/
structure Response where
  status : Status
  value : Word64
  deriving DecidableEq, Repr

/-- One transfer out of the engine (R80): the byte string of a `READ` on `dout`, one `SinkWrite` on `sink`
with the answer it got (R212), one response on `resp`. -/
inductive PortEvent where
  | dout (bytes : List Byte)
  | sinkWrite (chunk : List Byte) (answer : SinkAnswer)
  | resp (r : Response)
  deriving DecidableEq, Repr

/-- What the host can do to the engine next: put a word on `cmd` (R80); assert reset between commands
(R300); put a word on `cmd` and assert reset while the command is in progress, after `transfers` of its
data transfers (R300; log entry 8). -/
inductive HostEvent where
  | command (w : CommandWord)
  | reset
  | commandCutByReset (w : CommandWord) (transfers : Nat)
  deriving DecidableEq, Repr

/-- The engine (R20) and its ports (R80). -/
structure State where
  /-- 1 once an `INIT` has completed since reset (R20, R27). -/
  ready : Bool
  /-- The cipher key, `key[0]` the most significant byte (R20, R21). -/
  key : Key
  /-- The counter value whose block the next `READ_RAW` draws from (R20, R22). -/
  ctr : Block
  /-- Which half of that block comes next (R20, R22). -/
  half : Bool
  /-- The most recently generated unit, `buf[0]` the most significant byte (R20, R23). -/
  buf : Word64
  /-- Number of valid bytes in `buf` (R20, R23). -/
  bufLen : BitVec 4
  /-- Index of the first unconsumed byte of `buf` (R20, R23). -/
  bufPos : BitVec 4
  /-- The logical absolute read position (R20, R24). -/
  offset : Word64
  /-- 1 when a stream bound was given (R20, R25). -/
  maxValid : Bool
  /-- The stream bound in bytes (R20, R25). -/
  maxSize : Word64
  /-- What the host does next, first event first: the port `cmd` and the reset input (R80, R300, R305). -/
  inbox : List HostEvent
  /-- The bytes the host has placed on `seed_in`, first byte first (R80, R63 (d)). -/
  seedIn : List Byte
  /-- The bytes placed on `rnd_in` (R80, R114). -/
  rndIn : List Byte
  /-- The answers the sink is going to give (R212). -/
  sinkIn : List SinkAnswer
  /-- Everything that has left the engine on `dout`, `sink` and `resp`, oldest first (R73, R80). -/
  out : List PortEvent
  /-- How many free values have been drawn. -/
  draws : Nat
  deriving DecidableEq, Repr

/-- The machine never stops with a fault: every error the spec describes is a response and a next state
(R270, R276). Nothing raises one; safe. -/
inductive Fault where
  deriving DecidableEq, Repr

/-- Why the model gives a form no meaning. -/
inductive Refusal where
  /-- An instruction that has no meaning yet; raised only in an arm of `exec` (none is left). Safe. -/
  | notModelled (mnemonic : String)
  /-- `READ_RAW(n)` with `n mod 8 ≠ 0`, which the spec does not define and asks a model to refuse (R134, U2);
  raised by `microStep`, by no command. Safe. -/
  | rawReadOffUnitGrid
  /-- `SEEK_BUFFER(pos)` with `pos > buf_len`, which the spec asks a model to refuse (R155, U4); raised by
  `microStep`, by no command. Safe. -/
  | seekBufferPastEnd
  deriving DecidableEq, Repr

/-- The engine right after reset (R37, R300): `ready = 0`, every other register a free value (U6; log
entry 4), nothing on any port. -/
def State.reset : State where
  ready := false
  key := Config.freeKey 0
  ctr := Config.freeCtr 0
  half := Config.freeHalf 0
  buf := Config.freeBuf 0
  bufLen := Config.freeBufLen 0
  bufPos := Config.freeBufPos 0
  offset := Config.freeOffset 0
  maxValid := Config.freeMaxValid 0
  maxSize := Config.freeMaxSize 0
  inbox := []
  seedIn := []
  rndIn := []
  sinkIn := []
  out := []
  draws := 1

end Sys2Proof.Machine
end

