-- ==== Sys2Proof/Machine/Flags.lean ====
section
/-! DEFINITION. The engine has no flags, condition codes or sticky error bits: the outcome of a command is
carried by its response alone (spec 10_state.md rule R28). This file holds the response's encoding
(30_encoding.md rules R82, R88; 60_exceptions.md rule R270). -/

namespace Sys2Proof.Machine

/-- The code of a status (R88, R270). -/
def Status.code : Status → Byte
  | .ok => 0
  | .invalidArgument => 1
  | .invalidOperation => 2
  | .ioFailure => 3
  | .notReady => 4
  | .reservedCommand => 5

/-- The 72-bit response word: `status` in bits 71:64, `value` in bits 63:0 (R88). -/
def Response.word (r : Response) : ResponseWord :=
  r.status.code ++ r.value

/-- The nine bytes of a response: byte 0 `status`, bytes 1 to 8 `value` big-endian (R82). -/
def Response.bytes (r : Response) : List Byte :=
  be 9 r.word.toNat

/-- A status that reports a refusal before any effect: every one but `OK` and `IOFailure` (R276, R277). -/
def Status.isRefusal : Status → Bool
  | .ok => false
  | .invalidArgument => true
  | .invalidOperation => true
  | .ioFailure => false
  | .notReady => true
  | .reservedCommand => true

end Sys2Proof.Machine
end

