-- ==== Sys2Proof/Machine/Sha.lean ====
section
/-! DEFINITION. The hash `SHA256` (spec 47_sha256.md rules R250 to R256), which the spec supplies from
general knowledge; log entry 2. -/

namespace Sys2Proof.Machine

/-- `Ch` (R255). -/
def shaCh (x y z : Word32) : Word32 :=
  (x &&& y) ^^^ (~~~x &&& z)

/-- `Maj` (R255). -/
def shaMaj (x y z : Word32) : Word32 :=
  (x &&& y) ^^^ (x &&& z) ^^^ (y &&& z)

/-- `Σ0` (R255). -/
def shaSum0 (x : Word32) : Word32 :=
  x.rotateRight 2 ^^^ x.rotateRight 13 ^^^ x.rotateRight 22

/-- `Σ1` (R255). -/
def shaSum1 (x : Word32) : Word32 :=
  x.rotateRight 6 ^^^ x.rotateRight 11 ^^^ x.rotateRight 25

/-- `σ0` (R255). -/
def shaSigma0 (x : Word32) : Word32 :=
  x.rotateRight 7 ^^^ x.rotateRight 18 ^^^ (x >>> 3)

/-- `σ1` (R255). -/
def shaSigma1 (x : Word32) : Word32 :=
  x.rotateRight 17 ^^^ x.rotateRight 19 ^^^ (x >>> 10)

/-- The eight working variables, and the eight words of the running hash value (R256). -/
structure ShaVars where
  a : Word32
  b : Word32
  c : Word32
  d : Word32
  e : Word32
  f : Word32
  g : Word32
  h : Word32
  deriving DecidableEq, Repr

/-- The initial hash value `H0` (R254). -/
def shaInit : ShaVars :=
  ⟨0x6a09e667#32, 0xbb67ae85#32, 0x3c6ef372#32, 0xa54ff53a#32,
   0x510e527f#32, 0x9b05688c#32, 0x1f83d9ab#32, 0x5be0cd19#32⟩

/-- The round constants `K[0..64)` (R254). -/
def shaK : List Word32 :=
  [0x428a2f98, 0x71374491, 0xb5c0fbcf, 0xe9b5dba5, 0x3956c25b, 0x59f111f1, 0x923f82a4, 0xab1c5ed5] ++
  [0xd807aa98, 0x12835b01, 0x243185be, 0x550c7dc3, 0x72be5d74, 0x80deb1fe, 0x9bdc06a7, 0xc19bf174] ++
  [0xe49b69c1, 0xefbe4786, 0x0fc19dc6, 0x240ca1cc, 0x2de92c6f, 0x4a7484aa, 0x5cb0a9dc, 0x76f988da] ++
  [0x983e5152, 0xa831c66d, 0xb00327c8, 0xbf597fc7, 0xc6e00bf3, 0xd5a79147, 0x06ca6351, 0x14292967] ++
  [0x27b70a85, 0x2e1b2138, 0x4d2c6dfc, 0x53380d13, 0x650a7354, 0x766a0abb, 0x81c2c92e, 0x92722c85] ++
  [0xa2bfe8a1, 0xa81a664b, 0xc24b8b70, 0xc76c51a3, 0xd192e819, 0xd6990624, 0xf40e3585, 0x106aa070] ++
  [0x19a4c116, 0x1e376c08, 0x2748774c, 0x34b0bcb5, 0x391c0cb3, 0x4ed8aa4a, 0x5b9cca4f, 0x682e6ff3] ++
  [0x748f82ee, 0x78a5636f, 0x84c87814, 0x8cc70208, 0x90befffa, 0xa4506ceb, 0xbef9a3f7, 0xc67178f2]

/-- How many zero bytes `Pad` appends after `0x80`: the least `z` with `(L + 1 + z) mod 64 = 56` (R253). -/
def shaPadZeros (len : Nat) : Nat :=
  (119 - len % 64) % 64

/-- `Pad(msg)` (R253). -/
def shaPad (msg : List Byte) : List Byte :=
  msg ++ [0x80#8] ++ List.replicate (shaPadZeros msg.length) 0#8 ++ be 8 (8 * msg.length)

/-- The big-endian word of bytes `4t .. 4t+3` of a block (R251, R256). -/
def shaBlockWord (m : List Byte) (t : Nat) : Word32 :=
  wordOfBytes (m.getD (4 * t) 0) (m.getD (4 * t + 1) 0) (m.getD (4 * t + 2) 0) (m.getD (4 * t + 3) 0)

/-- The first `16 + n` words of the message schedule of a block, the newest first (R256). -/
def shaScheduleRev (m : List Byte) : Nat → List Word32
  | 0 => ((List.range 16).map (shaBlockWord m)).reverse
  | n + 1 =>
    let ws := shaScheduleRev m n
    (shaSigma1 (ws.getD 1 0) + ws.getD 6 0 + shaSigma0 (ws.getD 14 0) + ws.getD 15 0) :: ws

/-- The message schedule `W[0..64)` of a block (R256). -/
def shaSchedule (m : List Byte) : List Word32 :=
  (shaScheduleRev m 48).reverse

/-- One pass of the compression loop, with `kw = (K[t], W[t])`; the eight assignments happen together (R256). -/
def shaRound (v : ShaVars) (kw : Word32 × Word32) : ShaVars :=
  let t1 := v.h + shaSum1 v.e + shaCh v.e v.f v.g + kw.1 + kw.2
  let t2 := shaSum0 v.a + shaMaj v.a v.b v.c
  ⟨t1 + t2, v.a, v.b, v.c, v.d + t1, v.e, v.f, v.g⟩

/-- The working variables after all 64 rounds on one block (R256). -/
def shaRounds (m : List Byte) (v : ShaVars) : ShaVars :=
  (shaK.zip (shaSchedule m)).foldl shaRound v

/-- Adding the working variables into the hash value (R256). -/
def shaAdd (x y : ShaVars) : ShaVars :=
  ⟨x.a + y.a, x.b + y.b, x.c + y.c, x.d + y.d, x.e + y.e, x.f + y.f, x.g + y.g, x.h + y.h⟩

/-- The hash value after one more 64-byte block (R256). -/
def shaCompress (hv : ShaVars) (m : List Byte) : ShaVars :=
  shaAdd hv (shaRounds m hv)

/-- The hash value after the next `n` 64-byte blocks of a padded message (R253, R256). -/
def shaBlocks : Nat → List Byte → ShaVars → ShaVars
  | 0, _, hv => hv
  | n + 1, bs, hv => shaBlocks n (bs.drop 64) (shaCompress hv (bs.take 64))

/-- The digest `BE_4(H[0]) ‖ … ‖ BE_4(H[7])` as 32 bytes in one key-sized word, digest byte 0 the most
significant (R256). -/
def shaDigest (v : ShaVars) : Key :=
  v.a ++ v.b ++ v.c ++ v.d ++ v.e ++ v.f ++ v.g ++ v.h

/-- `SHA256(msg)` (R250, R256). -/
def sha256 (msg : List Byte) : Key :=
  shaDigest (shaBlocks ((shaPad msg).length / 64) (shaPad msg) shaInit)

end Sys2Proof.Machine
end

