-- ==== Sys2Proof/Machine/Aes.lean ====
section
/-! DEFINITION. The block function `E`, AES-256 encryption of one block (spec 46_aes256.md rules R230 to
R237). The spec supplies it from general knowledge and decides for it (D1); log entry 2. -/

namespace Sys2Proof.Machine

/-- Multiplication by `x` in GF(2^8) modulo `x^8 + x^4 + x^3 + x + 1` (R231). -/
def xtime (a : Byte) : Byte :=
  if a.toNat < 0x80 then a <<< 1 else (a <<< 1) ^^^ 0x1b#8

/-- `03 • a` (R231). -/
def triple (a : Byte) : Byte :=
  xtime a ^^^ a

/-- Multiplication `a • b` in the field, the bits of `b` from bit 0 up, `a` doubled at each (R231). -/
def fieldMul (a b : Byte) : Byte :=
  (List.range 8).foldl (fun acc i => if b.getLsbD i then acc ^^^ (xtime^[i] a) else acc) 0#8

/-- The rows of the S-box, the row of high nibble 0 first; in a row, column 0 is the most significant
byte (R234). -/
def sboxRows : List Nat :=
  [0x637c777bf26b6fc53001672bfed7ab76, 0xca82c97dfa5947f0add4a2af9ca472c0,
   0xb7fd9326363ff7cc34a5e5f171d83115, 0x04c723c31896059a071280e2eb27b275] ++
  [0x09832c1a1b6e5aa0523bd6b329e32f84, 0x53d100ed20fcb15b6acbbe394a4c58cf,
   0xd0efaafb434d338545f9027f503c9fa8, 0x51a3408f929d38f5bcb6da2110fff3d2] ++
  [0xcd0c13ec5f974417c4a77e3d645d1973, 0x60814fdc222a908846eeb814de5e0bdb,
   0xe0323a0a4906245cc2d3ac629195e479, 0xe7c8376d8dd54ea96c56f4ea657aae08] ++
  [0xba78252e1ca6b4c6e8dd741f4bbd8b8a, 0x703eb5664803f60e613557b986c11d9e,
   0xe1f8981169d98e949b1e87e9ce5528df, 0x8ca1890dbfe6426841992d0fb054bb16]

/-- `SubByte(a) = SBOX[a]`: row the high nibble, column the low nibble (R234). -/
def sbox (a : Byte) : Byte :=
  BitVec.ofNat 8 (sboxRows.getD (a.toNat / 16) 0 >>> (8 * (15 - a.toNat % 16)))

/-- `SubWord` (R235). -/
def subWord (w : Word32) : Word32 :=
  wordOfBytes (sbox (wordByte w 0)) (sbox (wordByte w 1)) (sbox (wordByte w 2)) (sbox (wordByte w 3))

/-- `RotWord` (R235). -/
def rotWord (w : Word32) : Word32 :=
  wordOfBytes (wordByte w 1) (wordByte w 2) (wordByte w 3) (wordByte w 0)

/-- `Rcon[j] = (x^(j−1), 0, 0, 0)` (R235). -/
def rcon (j : Nat) : Word32 :=
  wordOfBytes (xtime^[j - 1] 1#8) 0 0 0

/-- What `w[i−8]` is combined with to give `w[i]`, from `w[i−1]` (R235). -/
def scheduleStep (i : Nat) (prev : Word32) : Word32 :=
  if i % 8 = 0 then subWord (rotWord prev) ^^^ rcon (i / 8)
  else if i % 8 = 4 then subWord prev
  else prev

/-- Key word `i`, `i = 0..7`: key bytes `4i .. 4i+3`, in order (R233). -/
def keyWord (key : Key) (i : Nat) : Word32 :=
  key.extractLsb' (32 * (7 - i)) 32

/-- The first `8 + n` words of the key schedule, the newest first (R235). -/
def scheduleRev (key : Key) : Nat → List Word32
  | 0 => [keyWord key 7, keyWord key 6, keyWord key 5, keyWord key 4,
          keyWord key 3, keyWord key 2, keyWord key 1, keyWord key 0]
  | n + 1 =>
    let ws := scheduleRev key n
    (ws.getD 7 0 ^^^ scheduleStep (n + 8) (ws.getD 0 0)) :: ws

/-- `KeyExpansion(key)`: the sixty words `w[0..60)` (R235). -/
def keyExpansion (key : Key) : List Word32 :=
  (scheduleRev key 52).reverse

/-- The 4 × 4 array of bytes as its four columns, row 0 the most significant byte of a column (R232). -/
structure AesState where
  c0 : Word32
  c1 : Word32
  c2 : Word32
  c3 : Word32
  deriving DecidableEq, Repr

/-- Input bytes enter column by column (R232). -/
def aesLoad (b : Block) : AesState :=
  ⟨b.extractLsb' 96 32, b.extractLsb' 64 32, b.extractLsb' 32 32, b.extractLsb' 0 32⟩

/-- Output bytes leave column by column (R232). -/
def aesStore (s : AesState) : Block :=
  s.c0 ++ s.c1 ++ s.c2 ++ s.c3

/-- `SubBytes` (R236). -/
def subBytes (s : AesState) : AesState :=
  ⟨subWord s.c0, subWord s.c1, subWord s.c2, subWord s.c3⟩

/-- One column after `ShiftRows`: row `r` comes from the column `r` places to the right (R236). -/
def shiftColumn (a b c d : Word32) : Word32 :=
  wordOfBytes (wordByte a 0) (wordByte b 1) (wordByte c 2) (wordByte d 3)

/-- `ShiftRows`: `s'[r][c] = s[r][(c + r) mod 4]` (R236). -/
def shiftRows (s : AesState) : AesState :=
  ⟨shiftColumn s.c0 s.c1 s.c2 s.c3, shiftColumn s.c1 s.c2 s.c3 s.c0,
   shiftColumn s.c2 s.c3 s.c0 s.c1, shiftColumn s.c3 s.c0 s.c1 s.c2⟩

/-- `MixColumns` on the bytes of one column (R236). -/
def mixBytes (a0 a1 a2 a3 : Byte) : Word32 :=
  wordOfBytes
    (xtime a0 ^^^ triple a1 ^^^ a2 ^^^ a3)
    (a0 ^^^ xtime a1 ^^^ triple a2 ^^^ a3)
    (a0 ^^^ a1 ^^^ xtime a2 ^^^ triple a3)
    (triple a0 ^^^ a1 ^^^ a2 ^^^ xtime a3)

/-- `MixColumns` on one column (R236). -/
def mixColumn (w : Word32) : Word32 :=
  mixBytes (wordByte w 0) (wordByte w 1) (wordByte w 2) (wordByte w 3)

/-- `MixColumns` (R236). -/
def mixColumns (s : AesState) : AesState :=
  ⟨mixColumn s.c0, mixColumn s.c1, mixColumn s.c2, mixColumn s.c3⟩

/-- `AddRoundKey(s, k)`: column `c` takes word `w[4k + c]` (R236). -/
def addRoundKey (ws : List Word32) (k : Nat) (s : AesState) : AesState :=
  ⟨s.c0 ^^^ ws.getD (4 * k) 0, s.c1 ^^^ ws.getD (4 * k + 1) 0,
   s.c2 ^^^ ws.getD (4 * k + 2) 0, s.c3 ^^^ ws.getD (4 * k + 3) 0⟩

/-- One full round, `k = 1..13` (R237). -/
def aesRound (ws : List Word32) (k : Nat) (s : AesState) : AesState :=
  addRoundKey ws k (mixColumns (shiftRows (subBytes s)))

/-- The state after the first key addition and `n` full rounds (R237). -/
def aesRounds (ws : List Word32) (s : AesState) : Nat → AesState
  | 0 => addRoundKey ws 0 s
  | n + 1 => aesRound ws (n + 1) (aesRounds ws s n)

/-- `Cipher(in, w)`: thirteen full rounds and a last one without `MixColumns` (R237). -/
def aesCipher (ws : List Word32) (b : Block) : Block :=
  aesStore (addRoundKey ws 14 (shiftRows (subBytes (aesRounds ws (aesLoad b) 13))))

/-- `E(key, block) = Cipher(block, KeyExpansion(key))` (R230). -/
def aesEncrypt (key : Key) (b : Block) : Block :=
  aesCipher (keyExpansion key) b

end Sys2Proof.Machine
end

