-- ==== Sys2Proof/Machine/Stream.lean ====
section
/-! DEFINITION. The stream address space (spec 41_raw_generation.md rules R130, R132; 20_memory.md rules
R60, R61): a read-only space computed from the key. The engine reaches no other memory (R35). -/

namespace Sys2Proof.Machine

/-- The counter block `BE_16(ctr)`: one big-endian number over the full block width (R132). -/
def counterBlock (ctr : Block) : Block :=
  ctr

/-- `E(key, BE_16((CTR_INIT + c) mod 2^128))` (R130). -/
def streamBlock (key : Key) (c : Nat) : Block :=
  aesEncrypt key (counterBlock (BitVec.ofNat 128 (Config.ctrInit + c)))

/-- Stream byte `S[t]` (R130). -/
def streamByte (key : Key) (t : Nat) : Byte :=
  blockByte (streamBlock key (t / 16)) (t % 16)

/-- Unit `j` of the stream, `KS(j) = S[8j .. 8j+8)`: one half of the block of counter value `j div 2` (R130). -/
def streamUnit (key : Key) (j : Nat) : Word64 :=
  blockHalf (streamBlock key (j / 2)) (j % 2 == 1)

/-- `MemRead(addr, n) = S[addr .. addr+n)` (R60). -/
def memRead (key : Key) (addr n : Nat) : List Byte :=
  (List.range n).map fun i => streamByte key (addr + i)

end Sys2Proof.Machine
end

