-- ==== Sys2Proof/Machine/Ops.lean ====
section
/-! DEFINITION. The shared operations: the ports, answering a command and refusing one (the engine's whole
exception entry, spec 60_exceptions.md rule R276; there is no return from it, R279), the micro-operations
(41_raw_generation.md R133, R135; 42_buffer.md R152 to R158), `READ_CORE` (43_read.md R172) and reset
(70_reset_and_hazards.md R300). -/

namespace Sys2Proof.Machine

/-! ### Derived quantities -/

/-- The unconsumed count `rem = buf_len − buf_pos` (R31). -/
def State.rem (s : State) : Nat :=
  s.bufLen.toNat - s.bufPos.toNat

/-- The next unit `nxt = 2·(ctr − CTR_INIT) + half` (R31). -/
def State.nxt (s : State) : Nat :=
  2 * (s.ctr.toNat - Config.ctrInit) + s.half.toNat

/-- The eight bytes of `buf`, `buf[0]` first (R20). -/
def State.bufBytes (s : State) : List Byte :=
  be 8 s.buf.toNat

/-- The unconsumed bytes `buf[buf_pos .. buf_len)` (R23). -/
def State.unconsumed (s : State) : List Byte :=
  (s.bufBytes.drop s.bufPos.toNat).take s.rem

/-! ### Answering and refusing -/

/-- Transfers leave the engine, in order (R73). -/
def emit (evs : List PortEvent) (s : State) : State :=
  { s with out := s.out ++ evs }

/-- The transfer on `dout` of a command's data; no data, no transfer (R80, R175 (a)). -/
def dataEvents : List Byte → List PortEvent
  | [] => []
  | b :: bs => [.dout (b :: bs)]

/-- `respond(status, value, data)`: the data leave first, then the response (R13, R73, R88). -/
def respond (st : Status) (value : Nat) (data : List Byte) (s : State) : State :=
  emit (dataEvents data ++ [.resp ⟨st, BitVec.ofNat 64 value⟩]) s

/-- `raise <Status>`: the one way the engine takes an exception. One response with the status and
`value = 0`; no register changes, nothing is consumed, no data leave (R276). -/
def raise (st : Status) (s : State) : State :=
  respond st 0 [] s

/-! ### The input ports -/

/-- The next `n` bytes of a port: those the host has placed there, then free ones (log entry 5). -/
def portBytes (free : Nat → Byte) (placed : List Byte) (draws n : Nat) : List Byte :=
  placed.take n ++ (List.range (n - placed.length)).map fun i => free (draws + i)

/-- Take `n` bytes from `seed_in` (R115). -/
def takeSeed (n : Nat) (s : State) : List Byte × State :=
  (portBytes Config.freeSeedByte s.seedIn s.draws n,
   { s with seedIn := s.seedIn.drop n, draws := s.draws + (n - s.seedIn.length) })

/-- Take 32 bytes from `rnd_in` (R114, R115). -/
def takeRnd (s : State) : List Byte × State :=
  (portBytes Config.freeRndByte s.rndIn s.draws Config.keySize,
   { s with rndIn := s.rndIn.drop Config.keySize, draws := s.draws + (Config.keySize - s.rndIn.length) })

/-- The answer the sink gives next (R212). -/
def sinkAnswer (s : State) : SinkAnswer :=
  match s.sinkIn with
  | a :: _ => a
  | [] => Config.freeSinkAnswer s.draws

/-- `SinkWrite(chunk)`: the chunk goes to the sink, which answers (R212). -/
def sinkWrite (chunk : List Byte) (s : State) : SinkAnswer × State :=
  (sinkAnswer s,
   { s with
     sinkIn := s.sinkIn.tail
     out := s.out ++ [.sinkWrite chunk (sinkAnswer s)]
     draws := s.draws + (1 - s.sinkIn.length) })

/-! ### The cipher context -/

/-- The cipher context moves on by one unit; the counter's increment is modulo 2^128 (R133, R136). -/
def advanceUnit (s : State) : State :=
  { s with ctr := if s.half then s.ctr + 1 else s.ctr, half := !s.half }

/-- The unit the context stands on: `blk[8·half .. 8·half + 8)` of `blk = E(key, BE_16(ctr))` (R133). -/
def currentUnit (s : State) : Word64 :=
  blockHalf (aesEncrypt s.key (counterBlock s.ctr)) s.half

/-- `READ_RAW(8·q)`, its length given in units, so that a length off the unit grid cannot be asked for
(R133, R134). -/
def readUnits : Nat → State → List Byte × State
  | 0, s => ([], s)
  | q + 1, s =>
    let r := readUnits q (advanceUnit s)
    (be 8 (currentUnit s).toNat ++ r.1, r.2)

/-- `CIPHER_AT(u)`: the context stands on unit `u` (R135). -/
def cipherAt (u : Nat) (s : State) : State :=
  { s with ctr := BitVec.ofNat 128 (Config.ctrInit + u / 2), half := u % 2 == 1 }

/-! ### The buffer -/

/-- `FILL_BUFFER()`: `buf <- READ_RAW(8)` (R152). -/
def fillBuffer (s : State) : State :=
  { advanceUnit s with buf := currentUnit s, bufLen := 8, bufPos := 0 }

/-- How many bytes `READ_FROM_BUFFER(n)` returns, `min(n, buf_len − buf_pos)` (R153). -/
def bufferTake (n : Nat) (s : State) : Nat :=
  min n s.rem

/-- `READ_FROM_BUFFER(n)` (R153). -/
def readFromBuffer (n : Nat) (s : State) : List Byte × State :=
  ((s.bufBytes.drop s.bufPos.toNat).take (bufferTake n s),
   { s with bufPos := BitVec.ofNat 4 (s.bufPos.toNat + bufferTake n s) })

/-- `SEEK_BUFFER(pos)`, defined for `pos ≤ buf_len` (R155). -/
def seekBuffer (pos : Nat) (s : State) : State :=
  { s with bufPos := BitVec.ofNat 4 pos }

/-- `CLEAR_BUFFER()` (R158). -/
def clearBuffer (s : State) : State :=
  { s with buf := 0, bufLen := 0, bufPos := 0 }

/-! ### `READ_CORE` -/

/-- `offset <- offset + n` (R172). -/
def advanceOffset (n : Nat) (s : State) : State :=
  { s with offset := BitVec.ofNat 64 (s.offset.toNat + n) }

/-- Step 5 of `READ_CORE`: the remainder `r` from the start of a fresh unit, nothing when `r = 0` (R172). -/
def readTail (r : Nat) (s : State) : List Byte × State :=
  if r > 0 then readFromBuffer r (fillBuffer s) else ([], s)

/-- `READ_CORE(n)`: drain the buffer, read whole units, take the remainder from a fresh unit (R172). -/
def readCore (n : Nat) (s : State) : List Byte × State :=
  let drained := readFromBuffer n s
  let m := n - drained.1.length
  let raw := readUnits (m / 8) drained.2
  let tail := readTail (m % 8) raw.2
  let bytes := drained.1 ++ raw.1 ++ tail.1
  (bytes, advanceOffset bytes.length tail.2)

/-! ### Reset -/

/-- Reset: `ready <- 0`, every other register any value (R37, R300, U6); what has left the engine stays
where it went. -/
def assertReset (s : State) : State :=
  { s with
    ready := false
    key := Config.freeKey s.draws
    ctr := Config.freeCtr s.draws
    half := Config.freeHalf s.draws
    buf := Config.freeBuf s.draws
    bufLen := Config.freeBufLen s.draws
    bufPos := Config.freeBufPos s.draws
    offset := Config.freeOffset s.draws
    maxValid := Config.freeMaxValid s.draws
    maxSize := Config.freeMaxSize s.draws
    draws := s.draws + 1 }

/-- The transfer is a response. -/
def PortEvent.isResp : PortEvent → Bool
  | .dout _ => false
  | .sinkWrite _ _ => false
  | .resp _ => true

/-- The transfer is a `SinkWrite`. -/
def PortEvent.isSinkWrite : PortEvent → Bool
  | .dout _ => false
  | .sinkWrite _ _ => true
  | .resp _ => false

/-- The first `k` data transfers out of the engine that took it from `s` to `t`. -/
def dataSent (k : Nat) (s t : State) : List PortEvent :=
  ((t.out.drop s.out.length).filter fun e => !e.isResp).take k

/-- A command that would take the engine from `s` to `t` is cut by reset after `k` of its data transfers:
it produces no response, what it sent stays sent, and the engine is reset (R300; log entry 8). -/
def abandon (k : Nat) (s t : State) : State :=
  assertReset
    { s with
      seedIn := if k = 0 then s.seedIn else t.seedIn
      rndIn := if k = 0 then s.rndIn else t.rndIn
      sinkIn := s.sinkIn.drop ((dataSent k s t).filter PortEvent.isSinkWrite).length
      out := s.out ++ dataSent k s t
      draws := t.draws }

end Sys2Proof.Machine
end

