-- ==== Sys2Proof/Machine/Operands.lean ====
section
/-! DEFINITION. What a command's operand resolves to, and the checks that precede every effect, in their
order (spec 43_read.md rules R171 to R174, 44_seek.md rules R191, R193, R196, 60_exceptions.md rule R275).
The sums are exact, on integers (R178, R201). -/

namespace Sys2Proof.Machine

/-- `max_size − offset`, negative past the bound (R171). -/
def bytesToBound (s : State) : Int :=
  (s.maxSize.toNat : Int) - s.offset.toNat

/-- `RESOLVE(SZ, A)`: `none` is the omitted size, `SZ = 0` (R171). -/
def resolveSize (size : Option Nat) (s : State) : Except Status Int :=
  match size with
  | some a => .ok (if s.maxValid then min (a : Int) (bytesToBound s) else a)
  | none => if s.maxValid then .ok (bytesToBound s) else .error .invalidArgument

/-- The checks of `READ` and `DUMP`: ready, the size resolves, the end is a legal position. The answer is
the number of bytes to deliver, 0 for a resolved size that is not positive (R172, R173, R213). -/
def checkSize (size : Option Nat) (s : State) : Except Status Nat :=
  if s.ready then
    match resolveSize size s with
    | .error e => .error e
    | .ok n =>
      if n ≤ 0 then .ok 0
      else if (s.offset.toNat : Int) + n > Config.offsetMax then .error .invalidArgument
      else .ok n.toNat
  else .error .notReady

/-- `TARGET(whence, A)` (R191). -/
def seekTarget (whence : Whence) (a : Int) (s : State) : Except Status Int :=
  match whence with
  | .set => .ok a
  | .cur => .ok (s.offset.toNat + a)
  | .fromEnd => if s.maxValid then .ok (s.maxSize.toNat - a) else .error .invalidOperation

/-- The checks of `SEEK`: ready, the target resolves, it is a legal position (R193, R195). -/
def checkTarget (whence : Whence) (a : Int) (s : State) : Except Status Nat :=
  if s.ready then
    match seekTarget whence a s with
    | .error e => .error e
    | .ok t => if t < 0 ∨ t > Config.offsetMax then .error .invalidArgument else .ok t.toNat
  else .error .notReady

end Sys2Proof.Machine
end

