-- ==== Sys2Proof/Machine/Construct.lean ====
section
/-! DEFINITION. The `INIT` family (spec 40_construction.md rules R113 to R118). -/

namespace Sys2Proof.Machine

/-- The register values of a new lifetime with key `k`, and the answer `OK` (R38, R115, R117). -/
def startLifetime (k : Key) (maxSize : Option Nat) (s : State) : State :=
  respond .ok 0 []
    { s with
      ready := true
      key := k
      ctr := BitVec.ofNat 128 Config.ctrInit
      half := false
      buf := 0
      bufLen := 0
      bufPos := 0
      offset := 0
      maxValid := maxSize.isSome
      maxSize := BitVec.ofNat 64 (maxSize.getD 0) }

/-- `INIT` with a seed: `key = SHA256(seed_bytes)`; a seed that SHA-256 cannot hash is refused before a
byte is taken (R113, R115, R116). -/
def initFromSeed (seedLen : Nat) (maxSize : Option Nat) (s : State) : State :=
  if seedLen > Config.seedLenMax then raise .invalidArgument s
  else startLifetime (sha256 (takeSeed seedLen s).1) maxSize (takeSeed seedLen s).2

/-- `INIT` without a seed: `key` is the 32 bytes of `rnd_in` as they are (R114, R115). -/
def initFromRnd (maxSize : Option Nat) (s : State) : State :=
  startLifetime (BitVec.ofNat 256 (ofBe (takeRnd s).1)) maxSize (takeRnd s).2

/-- `INIT.RND` (R115). -/
def execInitRnd (s : State) : Host.Outcome State Fault Refusal :=
  .next (initFromRnd none s)

/-- `INIT.SEED` (R115). -/
def execInitSeed (seedLen : Nat) (s : State) : Host.Outcome State Fault Refusal :=
  .next (initFromSeed seedLen none s)

/-- `INIT.RND.MAX` (R115). -/
def execInitRndMax (maxSize : Nat) (s : State) : Host.Outcome State Fault Refusal :=
  .next (initFromRnd (some maxSize) s)

/-- `INIT.SEED.MAX` (R115). -/
def execInitSeedMax (seedLen maxSize : Nat) (s : State) : Host.Outcome State Fault Refusal :=
  .next (initFromSeed seedLen (some maxSize) s)

end Sys2Proof.Machine
end

