-- ==== Sys2Proof/Machine/Read.lean ====
section
/-! DEFINITION. The `READ` family (spec 43_read.md rules R170 to R178). -/

namespace Sys2Proof.Machine

/-- Deliver `n` bytes on `dout` and report `n` (R172). -/
def deliver (n : Nat) (s : State) : State :=
  respond .ok n (readCore n s).1 (readCore n s).2

/-- `READ(SZ, A)`: the checks; nothing at all for a resolved size that is not positive; else the bytes (R172). -/
def readCommand (size : Option Nat) (s : State) : State :=
  match checkSize size s with
  | .error e => raise e s
  | .ok n => if n = 0 then respond .ok 0 [] s else deliver n s

/-- `READ` (R172). -/
def execRead (size : Nat) (s : State) : Host.Outcome State Fault Refusal :=
  .next (readCommand (some size) s)

/-- `READ.ALL` (R172). -/
def execReadAll (s : State) : Host.Outcome State Fault Refusal :=
  .next (readCommand none s)

end Sys2Proof.Machine
end

