-- ==== Sys2Proof/Machine/Seek.lean ====
section
/-! DEFINITION. The `SEEK` family (spec 44_seek.md rules R190 to R201). -/

namespace Sys2Proof.Machine

/-- The cipher context and the buffer, rebuilt for position `t`: clear, re-create the context at unit
`t div 8`, fill the buffer when `t` lies inside a unit, set the cursor (R195). -/
def reposition (t : Nat) (s : State) : State :=
  let placed := cipherAt (t / 8) (clearBuffer s)
  seekBuffer (t % 8) (if t % 8 ≠ 0 then fillBuffer placed else placed)

/-- `offset <- t` (R195). -/
def setOffset (t : Nat) (s : State) : State :=
  { s with offset := BitVec.ofNat 64 t }

/-- `SEEK(whence, A)` (R195). -/
def seekCommand (whence : Whence) (a : Int) (s : State) : State :=
  match checkTarget whence a s with
  | .error e => raise e s
  | .ok t => respond .ok 0 [] (setOffset t (reposition t s))

/-- `SEEK.SET` (R195). -/
def execSeekSet (target : Int) (s : State) : Host.Outcome State Fault Refusal :=
  .next (seekCommand .set target s)

/-- `SEEK.CUR` (R195). -/
def execSeekCur (target : Int) (s : State) : Host.Outcome State Fault Refusal :=
  .next (seekCommand .cur target s)

/-- `SEEK.END` (R195). -/
def execSeekEnd (target : Int) (s : State) : Host.Outcome State Fault Refusal :=
  .next (seekCommand .fromEnd target s)

end Sys2Proof.Machine
end

