-- ==== Sys2Proof/Machine/TellDump.lean ====
section
/-! DEFINITION. `TELL` and the `DUMP` family (spec 45_tell_dump_genfile.md rules R210 to R217). -/

namespace Sys2Proof.Machine

/-- `TELL` (R210). -/
def execTell (s : State) : Host.Outcome State Fault Refusal :=
  .next (if s.ready then respond .ok s.offset.toNat [] s else raise .notReady s)

/-- How many chunks a `DUMP` of `n` bytes makes: `⌈n / DUMP_CHUNK⌉` (R306). -/
def chunkCount (n : Nat) : Nat :=
  (n + Config.dumpChunk - 1) / Config.dumpChunk

/-- The loop of `DUMP`, with `written` of `n` bytes accepted and at most `k` chunks to go: generate a
chunk, offer it to the sink, stop at the first `fail` (R213, R215). -/
def dumpLoop : Nat → Nat → Nat → State → State
  | 0, _, written, s => respond .ok written [] s
  | k + 1, n, written, s =>
    let c := min Config.dumpChunk (n - written)
    let chunk := readCore c s
    let sent := sinkWrite chunk.1 chunk.2
    match sent.1 with
    | .fail => respond .ioFailure written [] sent.2
    | .ok => dumpLoop k n (written + c) sent.2

/-- `DUMP(SZ, A)`: the size is resolved once, before the loop (R213). -/
def dumpCommand (size : Option Nat) (s : State) : State :=
  match checkSize size s with
  | .error e => raise e s
  | .ok n => dumpLoop (chunkCount n) n 0 s

/-- `DUMP` (R213). -/
def execDump (size : Nat) (s : State) : Host.Outcome State Fault Refusal :=
  .next (dumpCommand (some size) s)

/-- `DUMP.ALL` (R213). -/
def execDumpAll (s : State) : Host.Outcome State Fault Refusal :=
  .next (dumpCommand none s)

end Sys2Proof.Machine
end

