-- ==== Sys2Proof/Machine/Dispatch.lean ====
section
/-! DEFINITION. One arm per command (spec 30_encoding.md rule R83). -/

namespace Sys2Proof.Machine

/-- What a command does to the state. -/
def exec (i : Instr) (s : State) : Host.Outcome State Fault Refusal :=
  match i with
  | .initRnd => Sys2Proof.Machine.execInitRnd s
  | .initSeed seedLen => Sys2Proof.Machine.execInitSeed seedLen s
  | .initRndMax maxSize => Sys2Proof.Machine.execInitRndMax maxSize s
  | .initSeedMax seedLen maxSize => Sys2Proof.Machine.execInitSeedMax seedLen maxSize s
  | .readAll => Sys2Proof.Machine.execReadAll s
  | .read size => Sys2Proof.Machine.execRead size s
  | .seekSet target => Sys2Proof.Machine.execSeekSet target s
  | .seekCur target => Sys2Proof.Machine.execSeekCur target s
  | .seekEnd target => Sys2Proof.Machine.execSeekEnd target s
  | .tell => Sys2Proof.Machine.execTell s
  | .dumpAll => Sys2Proof.Machine.execDumpAll s
  | .dump size => Sys2Proof.Machine.execDump size s

end Sys2Proof.Machine
end

