-- ==== Sys2Proof/Machine/Step.lean ====
section
/-! DEFINITION. One step: the engine takes what the host does next and performs it completely (spec
70_reset_and_hazards.md rules R300, R305; 20_memory.md rule R70). There is no program counter and no fetch
from memory (10_state.md rule R26, 20_memory.md rule R72). -/

namespace Sys2Proof.Machine

/-- A command word is answered: a reserved word is refused before anything else is looked at, any other is
executed (R273, R275). -/
def runWord (w : CommandWord) (s : State) : Host.Outcome State Fault Refusal :=
  match decode w with
  | .error _ => .next (raise .reservedCommand s)
  | .ok i => exec i s

/-- A command word whose command reset cuts short (R300). -/
def runWordCut (w : CommandWord) (k : Nat) (s : State) : Host.Outcome State Fault Refusal :=
  match runWord w s with
  | .next t => .next (abandon k s t)
  | .fault f => .fault f
  | .refused r => .refused r

/-- One step. With nothing from the host the engine holds its state (R285). -/
def step (s : State) : Host.Outcome State Fault Refusal :=
  match s.inbox with
  | [] => .next s
  | .command w :: rest => runWord w { s with inbox := rest }
  | .reset :: rest => .next (assertReset { s with inbox := rest })
  | .commandCutByReset w k :: rest => runWordCut w k { s with inbox := rest }

/-- `s` with the command word of a table row's bits as what the host does next. -/
def State.withFetchWord (s : State) (nbits w : Nat) : State :=
  { s with inbox := .command (tableWord nbits w) :: s.inbox }

end Sys2Proof.Machine
end

