-- ==== Sys2Proof/Machine/HostSide.lean ====
section
/-! DEFINITION. The host's side of the interface, as far as the spec fixes it: the canonical bytes of a seed
(spec 40_construction.md rules R110, R111), the operations and pseudo-instructions a host writes and the
commands they expand to (30_encoding.md rules R83, R91, R92; 45_tell_dump_genfile.md rule R214). The machine
itself uses none of it. -/

namespace Sys2Proof.Machine

/-- A typed seed (R111). `other` is a value of any type whose rendering the spec leaves to the host
language (R111 (d)). -/
inductive Seed where
  | bytes (b : List Byte)
  | text (t : String)
  | int (v : Int)
  | other
  deriving DecidableEq, Repr

/-- The UTF-8 bytes of a list of characters (R111 (b)). -/
def utf8Bytes (cs : List Char) : List Byte :=
  (cs.flatMap String.utf8EncodeChar).map UInt8.toBitVec

/-- The shortest decimal numeral of an integer, `-` before a negative one (R111 (c), D13). -/
def decimalNumeral (v : Int) : List Char :=
  (if v < 0 then ['-'] else []) ++ Nat.toDigits 10 v.natAbs

/-- `canonical_bytes(seed)`; a seed of any other type is refused (R111). -/
def canonicalBytes : Seed → Option (List Byte)
  | .bytes b => some b
  | .text t => some (utf8Bytes t.toList)
  | .int v => some (utf8Bytes (decimalNumeral v))
  | .other => none

/-- An operation a host asks for (R83), or a pseudo-instruction (R92). -/
inductive HostCall where
  | new (seed : Option Seed) (maxSize : Option Nat)
  | read (size : Option Nat)
  | seek (target : Int) (whence : Whence)
  | tell
  | dump (size : Option Nat)
  | readAt (target : Int) (size : Nat)
  | genFile (size : Option Nat)
  deriving DecidableEq, Repr

/-- What the host puts on the ports for one call: commands, in order, and seed bytes (R91). -/
structure Issue where
  commands : List Instr
  seedBytes : List Byte
  deriving DecidableEq, Repr

/-- `INIT seed=none [, max=<n>]` (R91). -/
def initRndCommand : Option Nat → Instr
  | none => .initRnd
  | some maxSize => .initRndMax maxSize

/-- `INIT seed=<bytes> [, max=<n>]`, `A` the number of seed bytes (R91). -/
def initSeedCommand (seedLen : Nat) : Option Nat → Instr
  | none => .initSeed seedLen
  | some maxSize => .initSeedMax seedLen maxSize

/-- `READ <n>` or `READ *` (R91). -/
def readCommandOf : Option Nat → Instr
  | none => .readAll
  | some size => .read size

/-- `SEEK <t>, SET|CUR|END` (R91). -/
def seekCommandOf (target : Int) : Whence → Instr
  | .set => .seekSet target
  | .cur => .seekCur target
  | .fromEnd => .seekEnd target

/-- `DUMP <n>` or `DUMP *` (R91). -/
def dumpCommandOf : Option Nat → Instr
  | none => .dumpAll
  | some size => .dump size

/-- The expansion of a call, whatever its operands; `READAT t, n` is `SEEK t, SET; READ n`, and what `GENFILE`
sends to the engine is one `DUMP` (R91, R92, R214). -/
def HostCall.expansion : HostCall → Option Issue
  | .new none maxSize => some ⟨[initRndCommand maxSize], []⟩
  | .new (some seed) maxSize => (canonicalBytes seed).map fun b => ⟨[initSeedCommand b.length maxSize], b⟩
  | .read size => some ⟨[readCommandOf size], []⟩
  | .seek target whence => some ⟨[seekCommandOf target whence], []⟩
  | .tell => some ⟨[.tell], []⟩
  | .dump size => some ⟨[dumpCommandOf size], []⟩
  | .readAt target size => some ⟨[.seekSet target, .read size], []⟩
  | .genFile size => some ⟨[dumpCommandOf size], []⟩

/-- Every command of the issue has a word (R9, R91). -/
def Issue.hasWords (is : Issue) : Bool :=
  is.commands.all Instr.wellFormed

/-- What the host puts on the ports for a call. DESIGN CHOICE (safe, log entry 20): a call with a size, a bound,
a seed length or a seek operand outside the ranges of R91 has no word, the spec does not say what its host
does, and the model's host issues nothing at all for it. -/
def HostCall.issue (c : HostCall) : Option Issue :=
  c.expansion.filter Issue.hasWords

/-- The host puts an issue on the ports `cmd` and `seed_in`, behind what stands there (R80). The issues of
`HostCall.issue` have words; an issue built otherwise, with a command that has none, is outside the interface
(log entry 20). -/
def State.present (s : State) (is : Issue) : State :=
  { s with
    inbox := s.inbox ++ is.commands.map fun i => .command (encode i)
    seedIn := s.seedIn ++ is.seedBytes }

end Sys2Proof.Machine
end

