-- ==== Sys2Proof/Machine/Micro.lean ====
section
/-! DEFINITION. The five micro-operations as steps of their own (spec 30_encoding.md rule R93): no command
word encodes them, `READ`, `DUMP` and `SEEK` are built from them, and two of them have a domain outside
which the spec asks a model to refuse (41_raw_generation.md R134, 42_buffer.md R155). -/

namespace Sys2Proof.Machine

/-- A micro-operation (R4, R93). -/
inductive MicroOp where
  | readRaw (n : Nat)
  | fillBuffer
  | readFromBuffer (n : Nat)
  | seekBuffer (pos : Nat)
  | clearBuffer
  deriving DecidableEq, Repr

/-- What a micro-operation returns and leaves, or the refusal of an operand outside its domain (R133, R134,
R152, R153, R155, R158). -/
def microStep (m : MicroOp) (s : State) : Host.Outcome (List Byte × State) Fault Refusal :=
  match m with
  | .readRaw n => if n % 8 = 0 then .next (Machine.readUnits (n / 8) s) else .refused .rawReadOffUnitGrid
  | .fillBuffer => .next ([], Machine.fillBuffer s)
  | .readFromBuffer n => .next (Machine.readFromBuffer n s)
  | .seekBuffer pos =>
    if pos ≤ s.bufLen.toNat then .next ([], Machine.seekBuffer pos s) else .refused .seekBufferPastEnd
  | .clearBuffer => .next ([], Machine.clearBuffer s)

end Sys2Proof.Machine
end

