-- ==== Sys2Proof/Safety.lean ====
section
/-! DEFINITION. What counts as a safe run, in the terms claims use: the representation invariant, and when
two states are observationally equal (spec 10_state.md rules R32, R33). -/

namespace Sys2Proof.Machine

/-- Conditions (a) to (d) of the invariant `INV` (R32). -/
structure State.Consistent (s : State) : Prop where
  /-- (a) `buf_len ∈ {0, 8}`. -/
  len : s.bufLen = 0 ∨ s.bufLen = 8
  /-- (a) `0 ≤ buf_pos ≤ buf_len`. -/
  pos : s.bufPos.toNat ≤ s.bufLen.toNat
  /-- (b) `offset + rem = 8·nxt`. -/
  aligned : s.offset.toNat + s.rem = 8 * s.nxt
  /-- (c) the unconsumed bytes are the stream's. -/
  bytes : s.unconsumed = memRead s.key s.offset.toNat s.rem
  /-- (d) `0 ≤ offset ≤ OFFSET_MAX`. -/
  range : s.offset.toNat ≤ Config.offsetMax

/-- The invariant `INV` (R32): it speaks of states with `ready = 1`. -/
def State.Inv (s : State) : Prop :=
  s.ready = true → s.Consistent

/-- The ports and the counter of free values agree. -/
structure SamePorts (s t : State) : Prop where
  inbox : s.inbox = t.inbox
  seedIn : s.seedIn = t.seedIn
  rndIn : s.rndIn = t.rndIn
  sinkIn : s.sinkIn = t.sinkIn
  out : s.out = t.out
  draws : s.draws = t.draws

/-- The observable triple agrees: the key, the position, the optional bound (R33). -/
structure SameTriple (s t : State) : Prop where
  key : s.key = t.key
  offset : s.offset = t.offset
  maxValid : s.maxValid = t.maxValid
  maxSize : s.maxValid = true → s.maxSize = t.maxSize

/-- Two engines no run can tell apart (R33): the same ports, both ready or neither, and when they are
ready both satisfy `INV` and agree on the observable triple. -/
structure ObsEq (s t : State) : Prop where
  ready : s.ready = t.ready
  ports : SamePorts s t
  triple : s.ready = true → SameTriple s t
  invLeft : s.Inv
  invRight : t.Inv

/-- Every register of R20 agrees. -/
structure SameRegisters (s t : State) : Prop where
  ready : s.ready = t.ready
  key : s.key = t.key
  ctr : s.ctr = t.ctr
  half : s.half = t.half
  buf : s.buf = t.buf
  bufLen : s.bufLen = t.bufLen
  bufPos : s.bufPos = t.bufPos
  offset : s.offset = t.offset
  maxValid : s.maxValid = t.maxValid
  maxSize : s.maxSize = t.maxSize

/-- Every register but the cipher context, the buffer and the position agrees, and so do the ports a
command does not use: what `READ`, `SEEK` and `DUMP` leave alone (R39). -/
structure SameBut (s t : State) : Prop where
  ready : s.ready = t.ready
  key : s.key = t.key
  maxValid : s.maxValid = t.maxValid
  maxSize : s.maxSize = t.maxSize
  inbox : s.inbox = t.inbox
  seedIn : s.seedIn = t.seedIn
  rndIn : s.rndIn = t.rndIn

/-- The bytes a list of transfers put on `dout`, in order (R73). -/
def doutBytes : List PortEvent → List Byte
  | [] => []
  | .dout b :: es => b ++ doutBytes es
  | .sinkWrite _ _ :: es => doutBytes es
  | .resp _ :: es => doutBytes es

/-- The chunks a list of transfers offered to the sink, each with its answer, in order (R73, R212). -/
def sinkChunks : List PortEvent → List (List Byte × SinkAnswer)
  | [] => []
  | .dout _ :: es => sinkChunks es
  | .sinkWrite c a :: es => (c, a) :: sinkChunks es
  | .resp _ :: es => sinkChunks es

/-- How many bytes were offered to the sink. -/
def offeredBytes : List (List Byte × SinkAnswer) → Nat
  | [] => 0
  | (c, _) :: cs => c.length + offeredBytes cs

/-- How many of the bytes offered to the sink it accepted (R88, R212). -/
def acceptedBytes : List (List Byte × SinkAnswer) → Nat
  | [] => 0
  | (c, .ok) :: cs => c.length + acceptedBytes cs
  | (_, .fail) :: cs => acceptedBytes cs

/-- What left the engine between `s` and a later state `t`. -/
def newEvents (s t : State) : List PortEvent :=
  t.out.drop s.out.length

/-- The command is an `INIT`. -/
def isInit : Instr → Bool
  | .initRnd => true
  | .initSeed _ => true
  | .initRndMax _ => true
  | .initSeedMax _ _ => true
  | .readAll => false
  | .read _ => false
  | .seekSet _ => false
  | .seekCur _ => false
  | .seekEnd _ => false
  | .tell => false
  | .dumpAll => false
  | .dump _ => false

/-- Chunk `j` of a `DUMP` of `n` bytes from position `a`: `DUMP_CHUNK` bytes, the last one shorter (R213). -/
def dumpChunkBytes (key : Key) (a n j : Nat) : List Byte :=
  memRead key (a + Config.dumpChunk * j) (min Config.dumpChunk (n - Config.dumpChunk * j))

/-- A reserved command word, field by field (R84, R86, R87). -/
def ReservedWord (w : CommandWord) : Prop :=
  (fieldOp w ≠ 1 ∧ fieldOp w ≠ 2 ∧ fieldOp w ≠ 3 ∧ fieldOp w ≠ 4 ∧ fieldOp w ≠ 5) ∨
  (fieldOp w = 1 ∧
    (4 ≤ (fieldMod w).toNat ∨ ((fieldMod w).toNat % 2 = 0 ∧ fieldA w ≠ 0) ∨
      ((fieldMod w).toNat / 2 % 2 = 0 ∧ fieldB w ≠ 0))) ∨
  ((fieldOp w = 2 ∨ fieldOp w = 5) ∧
    (2 ≤ (fieldMod w).toNat ∨ fieldB w ≠ 0 ∨ ((fieldMod w).toNat % 2 = 0 ∧ fieldA w ≠ 0))) ∨
  (fieldOp w = 3 ∧ (4 ≤ (fieldMod w).toNat ∨ (fieldMod w).toNat = 3 ∨ fieldB w ≠ 0)) ∨
  (fieldOp w = 4 ∧ (fieldMod w ≠ 0 ∨ fieldA w ≠ 0 ∨ fieldB w ≠ 0))

/-- A run of `n` steps from `s` that never stops: the state it reaches, if it does not stop. -/
def runSteps : Nat → State → Option State
  | 0, s => some s
  | n + 1, s =>
    match step s with
    | .next t => runSteps n t
    | .fault _ => none
    | .refused _ => none

end Sys2Proof.Machine
end

