-- ==== Sys2Proof/Certificates/Slice0/Obligations.lean ====
section
/-! DEFINITION. The statements about the engine, for the provers. Each docstring names the rule of the spec
it formalises. -/

open Sys2Proof Sys2Proof.Machine

/-! ### Encoding -/

/-- Every well-formed command's word decodes to that command (R81 to R86). -/
def Obligations.DecodeOfEncodeIsTheCommand : Prop :=
  ∀ i : Instr, i.wellFormed = true → decode (encode i) = .ok i

/-- A word that decodes is the word of the command it decodes to, and that command is well-formed: no word
outside the encodings has a meaning (R86, R87). -/
def Obligations.EncodeOfDecodeIsTheWord : Prop :=
  ∀ (w : CommandWord) (i : Instr), decode w = .ok i → i.wellFormed = true ∧ encode i = w

/-- A word is reserved by the field conditions exactly when it matches no row of the opcode table, exactly
when the decoder refuses it; no word matches two rows (R87). -/
def Obligations.ReservedWordsMatchNoTableRow : Prop :=
  (∀ w : CommandWord, ReservedWord w ↔ ∀ r ∈ opcodeTable, r.selects w = false) ∧
  (∀ w : CommandWord, ReservedWord w ↔ ∃ e, decode w = .error e) ∧
  (∀ (w : CommandWord) (i : Instr), decode w = .ok i → (opcodeRow i).selects w = true) ∧
  opcodeTable.Pairwise fun r q => ∀ w, ¬(r.selects w = true ∧ q.selects w = true)

/-- The complete words that the spec writes out decode to the commands they are written for, and its
reserved examples do not decode (R94). -/
def Obligations.WordsOfTheSpecDecode : Prop :=
  decode 0x010100000000000000050000000000000000#144 = .ok (.initSeed 5) ∧
  decode 0x010300000000000000060000000000000064#144 = .ok (.initSeedMax 6 100) ∧
  decode 0x010000000000000000000000000000000000#144 = .ok .initRnd ∧
  decode 0x020100000000000000320000000000000000#144 = .ok (.read 50) ∧
  decode 0x020000000000000000000000000000000000#144 = .ok .readAll ∧
  decode 0x0301FFFFFFFFFFFFFFF50000000000000000#144 = .ok (.seekCur (-11)) ∧
  decode 0x0302000000000000000A0000000000000000#144 = .ok (.seekEnd 10) ∧
  decode 0x040000000000000000000000000000000000#144 = .ok .tell ∧
  decode 0x050000000000000000000000000000000000#144 = .ok .dumpAll ∧
  decode 0#144 = .error .unassignedOpcode ∧
  decode 0x020000000000000000010000000000000000#144 = .error .unusedFieldNonzero ∧
  decode 0x030300000000000000000000000000000000#144 = .error .reservedWhence ∧
  decode 0x040000000000000000000000000000000001#144 = .error .unusedFieldNonzero

/-- A command word as bytes is 18 bytes, `op`, `mod`, `A`, `B`, each big-endian, and they decode as the word
does; a response is 9 bytes, `status` and `value` (R82). -/
def Obligations.WordsAsBytesAreBigEndian : Prop :=
  (∀ w : CommandWord,
    be 18 w.toNat = [fieldOp w, fieldMod w] ++ be 8 (fieldA w).toNat ++ be 8 (fieldB w).toNat ∧
    (be 18 w.toNat).length = 18 ∧ decodeBytes (be 18 w.toNat) = decode w) ∧
  ∀ r : Response, r.bytes = r.status.code :: be 8 r.value.toNat ∧ r.bytes.length = 9

/-! ### The step -/

/-- A word on `cmd` that decodes to a well-formed command is executed, and nothing is done around it but
taking the word from the port (R305). -/
def Obligations.StepExecutesTheDecodedCommand : Prop :=
  ∀ (s : State) (w : CommandWord) (rest : List HostEvent) (i : Instr),
    s.inbox = .command w :: rest → decode w = .ok i → i.wellFormed = true →
    step s = exec i { s with inbox := rest }

/-- A reserved word is answered `ReservedCommand`, `value = 0`, ready or not; nothing is taken from
`seed_in` or `rnd_in`, nothing leaves on `dout` or `sink`, no register changes (R273). -/
def Obligations.ReservedWordIsRefused : Prop :=
  ∀ (s : State) (w : CommandWord) (rest : List HostEvent),
    s.inbox = .command w :: rest → ReservedWord w →
    step s = .next { s with inbox := rest, out := s.out ++ [.resp ⟨.reservedCommand, 0⟩] }

/-- Between commands the engine holds its state (R285). -/
def Obligations.IdleEngineHoldsItsState : Prop :=
  ∀ s : State, s.inbox = [] → step s = .next s

/-- Reset between commands clears `ready`; it answers nothing and moves nothing on any port (R300). The
values of the other registers are free (log entry 4) and nothing is said of them. -/
def Obligations.ResetClearsReady : Prop :=
  ∀ (s : State) (rest : List HostEvent), s.inbox = .reset :: rest →
    ∃ t, step s = .next t ∧ t.ready = false ∧ t.inbox = rest ∧ t.out = s.out ∧
      t.seedIn = s.seedIn ∧ t.rndIn = s.rndIn ∧ t.sinkIn = s.sinkIn

/-- A command cut by reset after `k` data transfers produces no response. What it sent is exactly the first `k` of
the data transfers that the whole command would have sent, all of them when there are fewer, and it stays sent;
afterwards the engine is not ready (R300; that the cut falls between data transfers, after as many as the host
says, is the model's choice, log entry 8). -/
def Obligations.ResetAbandonsTheCommand : Prop :=
  ∀ (s : State) (w : CommandWord) (k : Nat) (rest : List HostEvent),
    s.inbox = .commandCutByReset w k :: rest →
    ∃ t u data r, step { s with inbox := .command w :: rest } = .next u ∧
      u.out = s.out ++ data ++ [.resp r] ∧ (∀ e ∈ data, e.isResp = false) ∧
      step s = .next t ∧ t.out = s.out ++ data.take k ∧ t.ready = false ∧ t.inbox = rest

/-- Every state has a next state: an error is a response, never a stop (R270, R276). That a command completes
even where the host has placed no bytes or answers is an assumption on the host, not a rule: its ports always
deliver (R306's premise; log entry 14), and what they deliver is then a free value (log entry 5). -/
def Obligations.EveryStepCompletes : Prop :=
  ∀ s : State, ∃ t, step s = .next t

/-- Every command word, accepted or refused, produces exactly one response, after all its data, and is taken
from the port; the response's `value` is the number of bytes delivered for `READ`, the number of bytes the
sink accepted for `DUMP`, the position for an accepted `TELL`, 0 for `INIT`, `SEEK` and every refusal (R88). -/
def Obligations.OneResponsePerCommandWithItsValue : Prop :=
  ∀ (s : State) (w : CommandWord) (rest : List HostEvent), s.Inv → s.inbox = .command w :: rest →
    ∃ t data r, step s = .next t ∧ t.inbox = rest ∧ t.out = s.out ++ data ++ [.resp r] ∧
      (∀ e ∈ data, e.isResp = false) ∧
      (r.status.isRefusal = true → r.value = 0 ∧ data = []) ∧
      ∀ i, decode w = .ok i → r.status.isRefusal = false →
        (isInit i = true → r.value = 0 ∧ data = []) ∧
        (∀ a, (i = .read a ∨ i = .readAll) → r.value.toNat = (doutBytes data).length ∧ sinkChunks data = []) ∧
        (∀ a, (i = .seekSet a ∨ i = .seekCur a ∨ i = .seekEnd a) → r.value = 0 ∧ data = []) ∧
        (i = .tell → r.value = s.offset ∧ data = []) ∧
        (∀ a, (i = .dump a ∨ i = .dumpAll) →
          r.value.toNat = acceptedBytes (sinkChunks data) ∧ doutBytes data = [])

/-- The response word carries `status` in bits 71:64 and `value` in bits 63:0, with codes 0 to 5, one for
each status (R88, R270). -/
def Obligations.ResponseWordLayout : Prop :=
  (∀ r : Response, r.word.extractLsb' 64 8 = r.status.code ∧ r.word.extractLsb' 0 64 = r.value) ∧
  Status.code .ok = 0 ∧ Status.code .invalidArgument = 1 ∧ Status.code .invalidOperation = 2 ∧
  Status.code .ioFailure = 3 ∧ Status.code .notReady = 4 ∧ Status.code .reservedCommand = 5

/-! ### INIT -/

/-- The registers after a successful `INIT` with a seed: the key is the digest of exactly `seedLen` bytes
taken from `seed_in`, those the host placed there first, and every register has the value R38 gives it. -/
def Obligations.InitWithSeedSetsEveryRegister : Prop :=
  ∀ (s : State) (seedLen maxSize : Nat), seedLen ≤ Config.seedLenMax → maxSize < 2 ^ 64 →
    ∃ seed : List Byte, seed.length = seedLen ∧
      seed.take s.seedIn.length = s.seedIn.take seedLen ∧
      exec (.initSeed seedLen) s = .next
        { s with
          ready := true, key := sha256 seed, ctr := 0, half := false, buf := 0, bufLen := 0, bufPos := 0,
          offset := 0, maxValid := false, maxSize := 0, seedIn := s.seedIn.drop seedLen,
          out := s.out ++ [.resp ⟨.ok, 0⟩], draws := s.draws + (seedLen - s.seedIn.length) } ∧
      exec (.initSeedMax seedLen maxSize) s = .next
        { s with
          ready := true, key := sha256 seed, ctr := 0, half := false, buf := 0, bufLen := 0, bufPos := 0,
          offset := 0, maxValid := true, maxSize := BitVec.ofNat 64 maxSize,
          seedIn := s.seedIn.drop seedLen,
          out := s.out ++ [.resp ⟨.ok, 0⟩], draws := s.draws + (seedLen - s.seedIn.length) }

/-- The registers after an `INIT` without a seed: the key's bytes are the 32 bytes taken from `rnd_in`, byte
`i` to `key[i]`, not hashed, and every other register has the value R38 gives it (R114). -/
def Obligations.InitWithoutSeedTakesTheKeyFromRnd : Prop :=
  ∀ (s : State) (maxSize : Nat), maxSize < 2 ^ 64 →
    ∃ (r : List Byte) (key : Key), r.length = 32 ∧ r.take s.rndIn.length = s.rndIn.take 32 ∧
      be 32 key.toNat = r ∧
      exec .initRnd s = .next
        { s with
          ready := true, key := key, ctr := 0, half := false, buf := 0, bufLen := 0, bufPos := 0,
          offset := 0, maxValid := false, maxSize := 0, rndIn := s.rndIn.drop 32,
          out := s.out ++ [.resp ⟨.ok, 0⟩], draws := s.draws + (32 - s.rndIn.length) } ∧
      exec (.initRndMax maxSize) s = .next
        { s with
          ready := true, key := key, ctr := 0, half := false, buf := 0, bufLen := 0, bufPos := 0,
          offset := 0, maxValid := true, maxSize := BitVec.ofNat 64 maxSize, rndIn := s.rndIn.drop 32,
          out := s.out ++ [.resp ⟨.ok, 0⟩], draws := s.draws + (32 - s.rndIn.length) }

/-- A seed longer than `SEED_LEN_MAX` is refused with `InvalidArgument`, before a byte is taken from
`seed_in`, and nothing changes (R116). -/
def Obligations.TooLongSeedIsRefused : Prop :=
  ∀ (s : State) (seedLen maxSize : Nat), Config.seedLenMax < seedLen →
    exec (.initSeed seedLen) s = .next { s with out := s.out ++ [.resp ⟨.invalidArgument, 0⟩] } ∧
    exec (.initSeedMax seedLen maxSize) s = .next { s with out := s.out ++ [.resp ⟨.invalidArgument, 0⟩] }

/-- `INIT` starts a new lifetime: nothing of the earlier registers survives in the state it leaves or in what
it answers (R117). -/
def Obligations.InitKeepsNothingOfTheEarlierLifetime : Prop :=
  ∀ (i : Instr) (s s' t t' : State), isInit i = true → SamePorts s s' →
    exec i s = .next t → exec i s' = .next t' → t.out ≠ s.out ++ [.resp ⟨.invalidArgument, 0⟩] → t = t'

/-- Whatever went before, an engine given seed bytes `seed`, with or without a bound, and then a `READ` whose
size resolves to `n` delivers the first `n` bytes of the stream keyed by their digest: the output is a function
of the seed bytes and of `n`, and the bound does not enter the key (R113, R118). -/
def Obligations.EqualSeedsGiveEqualStreams : Prop :=
  ∀ (s : State) (seed later : List Byte) (i : Instr) (a n : Nat) (rest : List HostEvent),
    ((i = .initSeed seed.length ∧ n = a) ∨
      ∃ m, m < 2 ^ 64 ∧ i = .initSeedMax seed.length m ∧ n = min a m) →
    s.inbox = .command (encode i) :: .command (encode (.read a)) :: rest →
    s.seedIn = seed ++ later → seed.length ≤ Config.seedLenMax → a < 2 ^ 64 → 0 < n → n ≤ Config.offsetMax →
    ∃ t, runSteps 2 s = some t ∧ t.inbox = rest ∧ t.seedIn = later ∧ t.offset.toNat = n ∧
      t.out = s.out ++
        [.resp ⟨.ok, 0⟩, .dout (memRead (sha256 seed) 0 n), .resp ⟨.ok, BitVec.ofNat 64 n⟩]

/-! ### READ -/

/-- A `READ` with resolved size `n > 0` that is not refused delivers exactly `S[offset .. offset + n)`, adds
`n` to `offset`, reports `n`, keeps `INV`, and leaves the key, the bound, `ready` and the other ports alone
(R170; the size resolves as R171 says). -/
def Obligations.ReadDeliversTheStream : Prop :=
  ∀ (s : State) (i : Instr) (n : Nat), s.ready = true → s.Inv →
    ((∃ a : Nat, i = .read a ∧
        (n : Int) = if s.maxValid then min (a : Int) (s.maxSize.toNat - s.offset.toNat) else a) ∨
      (i = .readAll ∧ s.maxValid = true ∧ (n : Int) = s.maxSize.toNat - s.offset.toNat)) →
    0 < n → s.offset.toNat + n ≤ Config.offsetMax →
    ∃ t, exec i s = .next t ∧
      t.out = s.out ++ [.dout (memRead s.key s.offset.toNat n), .resp ⟨.ok, BitVec.ofNat 64 n⟩] ∧
      t.offset.toNat = s.offset.toNat + n ∧ t.Inv ∧ SameBut s t ∧ t.sinkIn = s.sinkIn ∧ t.draws = s.draws ∧
      ∀ a m, memRead t.key a m = memRead s.key a m

/-- A `READ` or `DUMP` whose resolved size is zero or negative answers `OK`, 0, and changes nothing (R175 (a),
R216 (a)). -/
def Obligations.NonPositiveSizeTouchesNothing : Prop :=
  ∀ s : State, s.ready = true →
    (∀ a : Nat, (if s.maxValid then min (a : Int) (s.maxSize.toNat - s.offset.toNat) else (a : Int)) ≤ 0 →
      exec (.read a) s = .next { s with out := s.out ++ [.resp ⟨.ok, 0⟩] } ∧
      exec (.dump a) s = .next { s with out := s.out ++ [.resp ⟨.ok, 0⟩] }) ∧
    (s.maxValid = true → s.maxSize.toNat ≤ s.offset.toNat →
      exec .readAll s = .next { s with out := s.out ++ [.resp ⟨.ok, 0⟩] } ∧
      exec .dumpAll s = .next { s with out := s.out ++ [.resp ⟨.ok, 0⟩] })

/-- Without a bound, a `READ` or `DUMP` with the size omitted is refused with `InvalidArgument` and changes
nothing, whatever the position (R174, R215, R275). -/
def Obligations.MissingSizeIsRefused : Prop :=
  ∀ s : State, s.ready = true → s.maxValid = false →
    exec .readAll s = .next { s with out := s.out ++ [.resp ⟨.invalidArgument, 0⟩] } ∧
    exec .dumpAll s = .next { s with out := s.out ++ [.resp ⟨.invalidArgument, 0⟩] }

/-- A `READ` or `DUMP` with resolved size `n > 0` that would end beyond `OFFSET_MAX` is refused whole with
`InvalidArgument`: no byte is delivered and nothing changes (R173). -/
def Obligations.SizeBeyondLastPositionIsRefused : Prop :=
  ∀ (s : State) (n : Int), s.ready = true → 0 < n → (Config.offsetMax : Int) < s.offset.toNat + n →
    (∀ a : Nat, n = (if s.maxValid then min (a : Int) (s.maxSize.toNat - s.offset.toNat) else (a : Int)) →
      exec (.read a) s = .next { s with out := s.out ++ [.resp ⟨.invalidArgument, 0⟩] } ∧
      exec (.dump a) s = .next { s with out := s.out ++ [.resp ⟨.invalidArgument, 0⟩] }) ∧
    (s.maxValid = true → n = s.maxSize.toNat - s.offset.toNat →
      exec .readAll s = .next { s with out := s.out ++ [.resp ⟨.invalidArgument, 0⟩] } ∧
      exec .dumpAll s = .next { s with out := s.out ++ [.resp ⟨.invalidArgument, 0⟩] })

/-- A `READ` of either form, bounded or not, with resolved size `n > 0` that the buffer can serve whole changes
only the buffer cursor and the position (R175 (b)). -/
def Obligations.ReadServedFromTheBuffer : Prop :=
  ∀ (s : State) (i : Instr) (n : Nat), s.ready = true → s.Inv →
    ((∃ a : Nat, i = .read a ∧
        (n : Int) = if s.maxValid then min (a : Int) (s.maxSize.toNat - s.offset.toNat) else a) ∨
      (i = .readAll ∧ s.maxValid = true ∧ (n : Int) = s.maxSize.toNat - s.offset.toNat)) →
    0 < n → n ≤ s.rem → s.offset.toNat + n ≤ Config.offsetMax →
    exec i s = .next
      { s with
        bufPos := s.bufPos + BitVec.ofNat 4 n
        offset := s.offset + BitVec.ofNat 64 n
        out := s.out ++ [.dout (s.unconsumed.take n), .resp ⟨.ok, BitVec.ofNat 64 n⟩] }

/-- A `READ` of either form, bounded or not, with resolved size `n` that ends on a unit boundary past the
buffered bytes does not fill the buffer: it keeps its old bytes, all consumed, and an empty buffer stays empty;
the context moves on by the whole units read (R175 (c)). -/
def Obligations.ReadEndingOnUnitLeavesBufferDrained : Prop :=
  ∀ (s : State) (i : Instr) (n : Nat), s.ready = true → s.Inv →
    ((∃ a : Nat, i = .read a ∧
        (n : Int) = if s.maxValid then min (a : Int) (s.maxSize.toNat - s.offset.toNat) else a) ∨
      (i = .readAll ∧ s.maxValid = true ∧ (n : Int) = s.maxSize.toNat - s.offset.toNat)) →
    s.rem < n → (n - s.rem) % 8 = 0 → s.offset.toNat + n ≤ Config.offsetMax →
    ∃ t, exec i s = .next t ∧ t.buf = s.buf ∧ t.bufLen = s.bufLen ∧ t.bufPos = s.bufLen ∧
      t.nxt = s.nxt + (n - s.rem) / 8

/-- A `READ` of either form, bounded or not, with resolved size `n` that ends inside a unit leaves that unit in
the buffer with the cursor behind the bytes it took, and the context on the next unit (R172 step 5, R175 (d)). -/
def Obligations.ReadEndingInsideUnitLeavesItBuffered : Prop :=
  ∀ (s : State) (i : Instr) (n : Nat), s.ready = true → s.Inv →
    ((∃ a : Nat, i = .read a ∧
        (n : Int) = if s.maxValid then min (a : Int) (s.maxSize.toNat - s.offset.toNat) else a) ∨
      (i = .readAll ∧ s.maxValid = true ∧ (n : Int) = s.maxSize.toNat - s.offset.toNat)) →
    s.rem < n → (n - s.rem) % 8 ≠ 0 → s.offset.toNat + n ≤ Config.offsetMax →
    ∃ t, exec i s = .next t ∧ t.buf = streamUnit s.key ((s.offset.toNat + n) / 8) ∧ t.bufLen = 8 ∧
      t.bufPos.toNat = (s.offset.toNat + n) % 8 ∧ t.nxt = (s.offset.toNat + n) / 8 + 1

/-- Any sequence of reads that covers a byte range, inside the bound if there is one, delivers the same bytes,
however the range is split (R175 (f)). -/
def Obligations.SplitReadsDeliverTheSameBytes : Prop :=
  ∀ (sizes : List Nat) (s : State) (rest : List HostEvent), s.ready = true → s.Inv →
    s.offset.toNat + sizes.sum ≤ Config.offsetMax →
    (s.maxValid = true → s.offset.toNat + sizes.sum ≤ s.maxSize.toNat) →
    s.inbox = sizes.map (fun n => HostEvent.command (encode (.read n))) ++ rest →
    ∃ t, runSteps sizes.length s = some t ∧ t.inbox = rest ∧ t.offset.toNat = s.offset.toNat + sizes.sum ∧
      doutBytes (newEvents s t) = memRead s.key s.offset.toNat sizes.sum

/-! ### SEEK -/

/-- A `SEEK` whose target `t` is a legal position sets `offset` to it and rebuilds the cipher context and the
buffer for it: on a unit boundary the context stands on unit `t div 8` and the buffer is empty; inside a unit
that unit is in the buffer, the cursor on the target, and the context on the next unit. `INV` holds, the
answer is `OK`, and nothing else changes (R190, R195, R197, R199). The earlier state need not satisfy `INV`. -/
def Obligations.SeekRebuildsForTheTarget : Prop :=
  ∀ (s : State) (i : Instr) (t : Nat), s.ready = true → t ≤ Config.offsetMax →
    (i = .seekSet t ∨ (∃ a : Int, i = .seekCur a ∧ (t : Int) = s.offset.toNat + a) ∨
      (∃ a : Int, i = .seekEnd a ∧ s.maxValid = true ∧ (t : Int) = s.maxSize.toNat - a)) →
    ∃ u, exec i s = .next u ∧ u.offset.toNat = t ∧ u.Inv ∧
      (t % 8 = 0 → u.ctr.toNat = t / 16 ∧ u.half = (t / 8 % 2 == 1) ∧ u.buf = 0 ∧ u.bufLen = 0 ∧ u.bufPos = 0) ∧
      (t % 8 ≠ 0 → u.ctr.toNat = (t / 8 + 1) / 2 ∧ u.half = ((t / 8 + 1) % 2 == 1) ∧
        u.buf = streamUnit s.key (t / 8) ∧ u.bufLen = 8 ∧ u.bufPos.toNat = t % 8) ∧
      u.out = s.out ++ [.resp ⟨.ok, 0⟩] ∧ SameBut s u ∧ u.sinkIn = s.sinkIn ∧ u.draws = s.draws ∧
      ∀ a m, memRead u.key a m = memRead s.key a m

/-- A `SEEK` whose resolved target is negative or above `OFFSET_MAX` is refused with `InvalidArgument`; one
relative to the end without a bound is refused with `InvalidOperation`, its target not computed. Nothing
changes: the buffer is not cleared (R193, R196). -/
def Obligations.IllegalSeekIsRefused : Prop :=
  ∀ (s : State) (a : Int), s.ready = true →
    ((a < 0 ∨ (Config.offsetMax : Int) < a) →
      exec (.seekSet a) s = .next { s with out := s.out ++ [.resp ⟨.invalidArgument, 0⟩] }) ∧
    (((s.offset.toNat : Int) + a < 0 ∨ (Config.offsetMax : Int) < s.offset.toNat + a) →
      exec (.seekCur a) s = .next { s with out := s.out ++ [.resp ⟨.invalidArgument, 0⟩] }) ∧
    (s.maxValid = true →
      ((s.maxSize.toNat : Int) - a < 0 ∨ (Config.offsetMax : Int) < s.maxSize.toNat - a) →
      exec (.seekEnd a) s = .next { s with out := s.out ++ [.resp ⟨.invalidArgument, 0⟩] }) ∧
    (s.maxValid = false →
      exec (.seekEnd a) s = .next { s with out := s.out ++ [.resp ⟨.invalidOperation, 0⟩] })

/-- What a `SEEK` leaves does not depend on the state before it beyond the key, the position for `CUR` and the
bound for `END` (R190). -/
def Obligations.SeekForgetsTheHistory : Prop :=
  ∀ (i : Instr) (s s' t t' : State) (a : Int),
    s.ready = true → s'.ready = true → s.key = s'.key →
    (i = .seekSet a ∨ (i = .seekCur a ∧ s.offset = s'.offset) ∨
      (i = .seekEnd a ∧ s.maxValid = true ∧ s'.maxValid = true ∧ s.maxSize = s'.maxSize)) →
    exec i s = .next t → exec i s' = .next t' → t.out = s.out ++ [.resp ⟨.ok, 0⟩] →
    t'.out = s'.out ++ [.resp ⟨.ok, 0⟩] ∧ t.offset = t'.offset ∧ t.ctr = t'.ctr ∧ t.half = t'.half ∧
      t.buf = t'.buf ∧ t.bufLen = t'.bufLen ∧ t.bufPos = t'.bufPos

/-- `READAT t, a`, its size resolving to `n > 0` at position `t`, delivers `S[t .. t + n)` on any ready engine
with nothing else on `cmd`, bounded or not, whatever went before and whether or not `INV` holds before it: the
central correctness contract (R33, R92, R171, R190). -/
def Obligations.ReadAtDeliversTheBytesAtThePosition : Prop :=
  ∀ (s : State) (t a n : Nat), s.ready = true → s.inbox = [] → a < 2 ^ 64 →
    ((n : Int) = if s.maxValid then min (a : Int) (s.maxSize.toNat - t) else a) →
    0 < n → t + n ≤ Config.offsetMax →
    ∃ is u, (HostCall.readAt t a).issue = some is ∧ runSteps 2 (s.present is) = some u ∧ u.inbox = [] ∧
      u.offset.toNat = t + n ∧ u.Inv ∧
      u.out = s.out ++
        [.resp ⟨.ok, 0⟩, .dout (memRead s.key t n), .resp ⟨.ok, BitVec.ofNat 64 n⟩]

/-- Seek/read parity: seeking to `t` and reading `n` bytes delivers what a reader who first reads and discards
`t` bytes from an engine at position 0 gets, the range lying inside the bound if there is one (R190). -/
def Obligations.SeekReadParity : Prop :=
  ∀ (s : State) (t n : Nat) (rest : List HostEvent), s.ready = true → s.Inv → s.offset = 0 → 0 < t → 0 < n →
    t + n ≤ Config.offsetMax → (s.maxValid = true → t + n ≤ s.maxSize.toNat) →
    ∃ u v bytes skipped,
      runSteps 2 { s with inbox := .command (encode (.seekSet t)) :: .command (encode (.read n)) :: rest } =
        some u ∧
      runSteps 2 { s with inbox := .command (encode (.read t)) :: .command (encode (.read n)) :: rest } =
        some v ∧
      u.out = s.out ++ [.resp ⟨.ok, 0⟩, .dout bytes, .resp ⟨.ok, BitVec.ofNat 64 n⟩] ∧
      v.out = s.out ++ [.dout skipped, .resp ⟨.ok, BitVec.ofNat 64 t⟩, .dout bytes,
        .resp ⟨.ok, BitVec.ofNat 64 n⟩] ∧
      bytes.length = n ∧ skipped.length = t

/-! ### TELL and DUMP -/

/-- `TELL` answers `offset` and changes nothing; before an `INIT` it answers `NotReady` (R210). -/
def Obligations.TellAnswersThePosition : Prop :=
  ∀ s : State,
    (s.ready = true → exec .tell s = .next { s with out := s.out ++ [.resp ⟨.ok, s.offset⟩] }) ∧
    (s.ready = false → exec .tell s = .next { s with out := s.out ++ [.resp ⟨.notReady, 0⟩] })

/-- With every answer `ok`, a `DUMP` with resolved size `n > 0` hands the sink `⌈n / 65536⌉` chunks in
increasing address order, each of 65536 bytes but for a shorter last one, that together are the bytes a
`READ n` would have returned; `offset` grows by `n`, `INV` holds, the answer is `OK`, `n` (R213). -/
def Obligations.AcceptedDumpWritesTheStream : Prop :=
  ∀ (s : State) (i : Instr) (n : Nat) (later : List SinkAnswer), s.ready = true → s.Inv →
    ((∃ a : Nat, i = .dump a ∧
        (n : Int) = if s.maxValid then min (a : Int) (s.maxSize.toNat - s.offset.toNat) else a) ∨
      (i = .dumpAll ∧ s.maxValid = true ∧ (n : Int) = s.maxSize.toNat - s.offset.toNat)) →
    0 < n → s.offset.toNat + n ≤ Config.offsetMax →
    s.sinkIn = List.replicate ((n + 65535) / 65536) .ok ++ later →
    ∃ t chunks, exec i s = .next t ∧
      chunks = (List.range ((n + 65535) / 65536)).map (dumpChunkBytes s.key s.offset.toNat n) ∧
      chunks.flatten = memRead s.key s.offset.toNat n ∧
      (∀ c ∈ chunks, c ≠ [] ∧ c.length ≤ 65536) ∧
      t.out = s.out ++ chunks.map (fun c => PortEvent.sinkWrite c .ok) ++ [.resp ⟨.ok, BitVec.ofNat 64 n⟩] ∧
      t.offset.toNat = s.offset.toNat + n ∧ t.Inv ∧ t.sinkIn = later ∧ SameBut s t ∧ t.draws = s.draws ∧
      ∀ a m, memRead t.key a m = memRead s.key a m

/-- When the sink fails at the chunk with index `k`, the `DUMP` stops there: the chunk was generated and
offered, `offset` stands past it, `INV` holds, later chunks are never generated, and the answer is
`IOFailure` with the bytes accepted before it (R215, R277). -/
def Obligations.FailedDumpStopsPastTheFailedChunk : Prop :=
  ∀ (s : State) (i : Instr) (n k : Nat) (later : List SinkAnswer), s.ready = true → s.Inv →
    ((∃ a : Nat, i = .dump a ∧
        (n : Int) = if s.maxValid then min (a : Int) (s.maxSize.toNat - s.offset.toNat) else a) ∨
      (i = .dumpAll ∧ s.maxValid = true ∧ (n : Int) = s.maxSize.toNat - s.offset.toNat)) →
    s.offset.toNat + n ≤ Config.offsetMax → 65536 * k < n →
    s.sinkIn = List.replicate k .ok ++ .fail :: later →
    ∃ t, exec i s = .next t ∧
      t.out = s.out ++
        ((List.range k).map fun j => PortEvent.sinkWrite (dumpChunkBytes s.key s.offset.toNat n j) .ok) ++
        [.sinkWrite (dumpChunkBytes s.key s.offset.toNat n k) .fail,
          .resp ⟨.ioFailure, BitVec.ofNat 64 (65536 * k)⟩] ∧
      t.offset.toNat = s.offset.toNat + min n (65536 * (k + 1)) ∧ t.Inv ∧ t.sinkIn = later ∧ SameBut s t ∧
      t.draws = s.draws

/-- Whatever the sink answers, placed beforehand or not, a `DUMP` with resolved size `n > 0` that is not refused
completes: with `OK` when all `n` bytes were accepted, with `IOFailure` otherwise, the accepted bytes being the
first bytes of the stream from the position on, the failed chunk the bytes that follow them, and the answer's
`value` the number accepted (R212, R213, R215, R306). -/
def Obligations.DumpCompletesWhateverTheSinkAnswers : Prop :=
  ∀ (s : State) (i : Instr) (n : Nat), s.ready = true → s.Inv →
    ((∃ a : Nat, i = .dump a ∧
        (n : Int) = if s.maxValid then min (a : Int) (s.maxSize.toNat - s.offset.toNat) else a) ∨
      (i = .dumpAll ∧ s.maxValid = true ∧ (n : Int) = s.maxSize.toNat - s.offset.toNat)) →
    0 < n → s.offset.toNat + n ≤ Config.offsetMax →
    ∃ (t : State) (accepted : List (List Byte)) (failed : List Byte), exec i s = .next t ∧ t.Inv ∧ SameBut s t ∧
      accepted.flatten = memRead s.key s.offset.toNat accepted.flatten.length ∧
      ((failed = [] ∧ accepted.flatten.length = n ∧ t.offset.toNat = s.offset.toNat + n ∧
          t.out = s.out ++ accepted.map (fun c => PortEvent.sinkWrite c .ok) ++
            [.resp ⟨.ok, BitVec.ofNat 64 n⟩]) ∨
        (failed ≠ [] ∧ accepted.flatten.length + failed.length ≤ n ∧
          failed = memRead s.key (s.offset.toNat + accepted.flatten.length) failed.length ∧
          t.offset.toNat = s.offset.toNat + accepted.flatten.length + failed.length ∧
          t.out = s.out ++ accepted.map (fun c => PortEvent.sinkWrite c .ok) ++
            [.sinkWrite failed .fail, .resp ⟨.ioFailure, BitVec.ofNat 64 accepted.flatten.length⟩]))

/-! ### Rules of the whole machine -/

/-- Before an `INIT`, every `READ`, `SEEK`, `TELL` and `DUMP` is refused with `NotReady`, `value = 0`, and
changes nothing; `INIT` is never refused for this reason (R274). -/
def Obligations.NotReadyBeforeInit : Prop :=
  (∀ (s : State) (i : Instr), s.ready = false → isInit i = false →
    exec i s = .next { s with out := s.out ++ [.resp ⟨.notReady, 0⟩] }) ∧
  ∀ (s t : State) (i : Instr) (before : List PortEvent) (r : Response), isInit i = true →
    exec i s = .next t → t.out = before ++ [.resp r] → r.status ≠ .notReady

/-- A command word that is answered by a refusal changes no register, consumes nothing, emits no data and one
response with the status and `value = 0`; the engine stands ready for the next command exactly as it was (R276). -/
def Obligations.RefusalChangesNothing : Prop :=
  ∀ (s t : State) (w : CommandWord) (rest : List HostEvent) (before : List PortEvent) (r : Response),
    s.inbox = .command w :: rest → step s = .next t → t.out = before ++ [.resp r] →
    r.status.isRefusal = true →
    t = { s with inbox := rest, out := s.out ++ [.resp ⟨r.status, 0⟩] }

/-- No command but `INIT` writes `ready`, the key or the bound, or takes anything from `seed_in`, `rnd_in` or
`cmd`; so the stream space reads as before at every address (R21, R25, R39, R67). -/
def Obligations.OnlyInitWritesKeyAndBound : Prop :=
  ∀ (i : Instr) (s t : State), isInit i = false → exec i s = .next t →
    SameBut s t ∧ ∀ a n, memRead t.key a n = memRead s.key a n

/-- Only reset clears `ready` (R27). -/
def Obligations.OnlyResetClearsReady : Prop :=
  ∀ s t : State, s.ready = true → step s = .next t → t.ready = false →
    ∃ rest, s.inbox = .reset :: rest ∨ ∃ w k, s.inbox = .commandCutByReset w k :: rest

/-- `READ` and `DUMP` move `offset` by exactly the number of bytes that left on `dout` or were offered to the
sink, whatever the outcome (R24, R26, R277). -/
def Obligations.PositionMovesByTheBytesGenerated : Prop :=
  ∀ (i : Instr) (s t : State), s.Inv → s.ready = true →
    (i = .readAll ∨ i = .dumpAll ∨ ∃ a, i = .read a ∨ i = .dump a) → exec i s = .next t →
    t.offset.toNat = s.offset.toNat + (doutBytes (newEvents s t)).length +
      offeredBytes (sinkChunks (newEvents s t))

/-- With a bound, no `READ` or `DUMP` carries the position past it (R61, R171). -/
def Obligations.ReadsNeverCrossTheBound : Prop :=
  ∀ (i : Instr) (s t : State), s.Inv → s.ready = true → s.maxValid = true →
    (i = .readAll ∨ i = .dumpAll ∨ ∃ a, i = .read a ∨ i = .dump a) → exec i s = .next t →
    t.offset.toNat ≤ max s.offset.toNat s.maxSize.toNat

/-- Every step keeps the representation invariant `INV` (R32, R176, R197). -/
def Obligations.StepKeepsTheInvariant : Prop :=
  ∀ s t : State, s.Inv → step s = .next t → t.Inv

/-- The invariant holds right after reset (R32, R37). -/
def Obligations.ResetSatisfiesTheInvariant : Prop :=
  State.reset.Inv ∧ State.reset.ready = false

/-- In a state that satisfies `INV` the cipher counter is at most 2^59, so its increment never wraps (R22,
R136). -/
def Obligations.CounterStaysBelowItsModulus : Prop :=
  ∀ s : State, s.ready = true → s.Inv → s.ctr.toNat ≤ 2 ^ 59

/-- Engines that agree on the observable triple, both satisfying `INV`, answer every step alike and still agree
afterwards, whatever their hidden registers hold (R33). -/
def Obligations.HiddenRegistersAreUnobservable : Prop :=
  ∀ s t s' : State, ObsEq s t → step s = .next s' → ∃ t', step t = .next t' ∧ ObsEq s' t'

/-! ### Micro-operations -/

/-- `READ_RAW(n)` returns `S[8·nxt .. 8·nxt + n)` and moves the context on by `n/8` units; it touches nothing
else (R133). For `n` off the unit grid it is refused (R134). -/
def Obligations.RawReadReturnsWholeUnits : Prop :=
  ∀ (s : State) (n : Nat),
    (n % 8 = 0 → s.nxt + n / 8 < 2 ^ 127 →
      ∃ u, microStep (.readRaw n) s = .next (memRead s.key (8 * s.nxt) n, u) ∧ u.nxt = s.nxt + n / 8 ∧
        u = { s with ctr := u.ctr, half := u.half }) ∧
    (n % 8 ≠ 0 → microStep (.readRaw n) s = .refused .rawReadOffUnitGrid)

/-- `READ_FROM_BUFFER(n)` returns `min(n, rem)` bytes from the cursor on and moves the cursor past them; nothing
else changes, and an empty or drained buffer gives nothing (R153). -/
def Obligations.BufferReadReturnsWhatIsThere : Prop :=
  ∀ (s : State) (n : Nat), s.bufPos.toNat ≤ s.bufLen.toNat → s.bufLen.toNat ≤ 8 →
    ∃ bytes u, microStep (.readFromBuffer n) s = .next (bytes, u) ∧ bytes.length = min n s.rem ∧
      bytes = s.unconsumed.take n ∧ u = { s with bufPos := u.bufPos } ∧
      u.bufPos.toNat = s.bufPos.toNat + min n s.rem ∧ (s.rem = 0 → bytes = [] ∧ u = s)

/-- `FILL_BUFFER` loads unit `nxt` and moves the context on by one; `SEEK_BUFFER(pos)` sets the cursor, and is
refused past `buf_len`; `CLEAR_BUFFER` leaves the empty buffer. None touches anything else (R152, R155,
R158). -/
def Obligations.BufferMicroOperations : Prop :=
  ∀ (s : State),
    (s.nxt < 2 ^ 127 →
      ∃ u, microStep .fillBuffer s = .next ([], u) ∧ u.nxt = s.nxt + 1 ∧
        u = { s with ctr := u.ctr, half := u.half, buf := streamUnit s.key s.nxt, bufLen := 8, bufPos := 0 }) ∧
    (∀ pos, pos ≤ s.bufLen.toNat →
      microStep (.seekBuffer pos) s = .next ([], { s with bufPos := BitVec.ofNat 4 pos })) ∧
    (∀ pos, s.bufLen.toNat < pos → microStep (.seekBuffer pos) s = .refused .seekBufferPastEnd) ∧
    microStep .clearBuffer s = .next ([], { s with buf := 0, bufLen := 0, bufPos := 0 })

/-- `CIPHER_AT(u)` stands the context on unit `u`: the next `READ_RAW(8)` returns unit `u` (R135). -/
def Obligations.CipherAtStandsOnTheUnit : Prop :=
  ∀ (s : State) (u : Nat), u < 2 ^ 128 →
    (cipherAt u s).nxt = u ∧ (readUnits 1 (cipherAt u s)).1 = be 8 (streamUnit s.key u).toNat ∧
      cipherAt u s = { s with ctr := (cipherAt u s).ctr, half := (cipherAt u s).half }

/-- `READ_RAW` and `FILL_BUFFER` run only when no unconsumed byte is left. `READ_CORE` is: drain, `READ_RAW` in the
state after the drain, `FILL_BUFFER` in the state after that if a remainder is left; when it generates anything,
`rem = 0` in the states it does so in. `SEEK`'s repositioning is: clear, place the context, `FILL_BUFFER` there if
the target lies inside a unit; `rem = 0` there (R152, R172, R195, R311, R313; the spec's U5 asks for the proof at
each call site). -/
def Obligations.GenerationStartsOnADrainedBuffer : Prop :=
  ∀ (s : State) (n t : Nat), s.bufPos.toNat ≤ s.bufLen.toNat → s.bufLen.toNat ≤ 8 →
    ∃ (d raw : List Byte) (afterDrain afterRaw placed : State),
      readFromBuffer n s = (d, afterDrain) ∧ d.length ≤ n ∧
      readUnits ((n - d.length) / 8) afterDrain = (raw, afterRaw) ∧
      placed = cipherAt (t / 8) (clearBuffer s) ∧
      ((n - d.length) % 8 = 0 →
        readCore n s = (d ++ raw, advanceOffset (d ++ raw).length afterRaw)) ∧
      ((n - d.length) % 8 ≠ 0 →
        readCore n s =
          (d ++ raw ++ (readFromBuffer ((n - d.length) % 8) (fillBuffer afterRaw)).1,
            advanceOffset n (readFromBuffer ((n - d.length) % 8) (fillBuffer afterRaw)).2)) ∧
      (n = d.length → readCore n s = (d, advanceOffset n afterDrain)) ∧
      (d.length < n → afterDrain.rem = 0 ∧ afterRaw.rem = 0) ∧
      (t % 8 = 0 → reposition t s = seekBuffer 0 placed) ∧
      (t % 8 ≠ 0 → reposition t s = seekBuffer (t % 8) (fillBuffer placed)) ∧
      placed.rem = 0

/-! ### The primitives -/

/-- The key schedule: words 0 to 7 are the key's bytes in order, and each later word is the word eight places
before combined with the step of its index (R233, R235). -/
def Obligations.KeyScheduleRecurrence : Prop :=
  ∀ key : Key, (keyExpansion key).length = 60 ∧
    (∀ i, i < 8 → ∃ w, (keyExpansion key)[i]? = some w ∧
      be 4 w.toNat = ((be 32 key.toNat).drop (4 * i)).take 4) ∧
    ∀ i, 8 ≤ i → i < 60 → ∃ w prev old, (keyExpansion key)[i]? = some w ∧
      (keyExpansion key)[i - 1]? = some prev ∧ (keyExpansion key)[i - 8]? = some old ∧
      w = old ^^^ (if i % 8 = 0 then subWord (rotWord prev) ^^^ rcon (i / 8)
        else if i % 8 = 4 then subWord prev else prev)

/-- For a fixed key, encryption of one block is a bijection on blocks (R238). -/
def Obligations.BlockEncryptionIsABijection : Prop :=
  ∀ key : Key, Function.Bijective (aesEncrypt key)

/-- The S-box is the affine map of the field inverse (R234). -/
def Obligations.SboxIsTheAffineMapOfTheInverse : Prop :=
  ∀ a : Byte, ∃ b : Byte, (a = 0 → b = 0) ∧ (a ≠ 0 → fieldMul a b = 1) ∧
    ∀ i, i < 8 → (sbox a).getLsbD i =
      (b.getLsbD i ^^ b.getLsbD ((i + 4) % 8) ^^ b.getLsbD ((i + 5) % 8) ^^ b.getLsbD ((i + 6) % 8) ^^
        b.getLsbD ((i + 7) % 8) ^^ (0x63#8).getLsbD i)

/-- `Pad(msg)` is the message, `0x80`, the least number of zero bytes that brings the length to 56 modulo 64,
and the bit length in eight bytes; its length is a multiple of 64 (R253). -/
def Obligations.PaddingFillsWholeBlocks : Prop :=
  ∀ msg : List Byte, ∃ z, shaPad msg = msg ++ [0x80#8] ++ List.replicate z 0#8 ++ be 8 (8 * msg.length) ∧
    (msg.length + 1 + z) % 64 = 56 ∧ (∀ y, (msg.length + 1 + y) % 64 = 56 → z ≤ y) ∧
    (shaPad msg).length % 64 = 0

/-- The message schedule: sixteen words of the block, then the recurrence (R256). -/
def Obligations.MessageScheduleRecurrence : Prop :=
  ∀ m : List Byte, (shaSchedule m).length = 64 ∧
    (∀ t, t < 16 → (shaSchedule m)[t]? = some (shaBlockWord m t)) ∧
    ∀ t, 16 ≤ t → t < 64 → ∃ w w2 w7 w15 w16, (shaSchedule m)[t]? = some w ∧
      (shaSchedule m)[t - 2]? = some w2 ∧ (shaSchedule m)[t - 7]? = some w7 ∧
      (shaSchedule m)[t - 15]? = some w15 ∧ (shaSchedule m)[t - 16]? = some w16 ∧
      w = shaSigma1 w2 + w7 + shaSigma0 w15 + w16

/-! ### The host's side -/

/-- An integer seed and the character string of its decimal numeral have the same canonical bytes, hence the
same key; byte strings are their own canonical bytes; a seed of another type has none (R111, R112). -/
def Obligations.IntegerSeedsAreTheirNumerals : Prop :=
  (∀ v : Int, canonicalBytes (.int v) = canonicalBytes (.text (toString v))) ∧
  (∀ b : List Byte, canonicalBytes (.bytes b) = some b) ∧ canonicalBytes .other = none
end

