-- ==== Sys2Proof/Laws/State.lean ====
section
/-! SUPPORT. What each update of the state does to each field, true by computation: no later proof unfolds
a record update. -/

namespace Sys2Proof.Machine

/-! ### emit -/

@[simp] theorem emit_ready (evs : List PortEvent) (s : State) : (emit evs s).ready = s.ready := rfl
@[simp] theorem emit_key (evs : List PortEvent) (s : State) : (emit evs s).key = s.key := rfl
@[simp] theorem emit_ctr (evs : List PortEvent) (s : State) : (emit evs s).ctr = s.ctr := rfl
@[simp] theorem emit_half (evs : List PortEvent) (s : State) : (emit evs s).half = s.half := rfl
@[simp] theorem emit_buf (evs : List PortEvent) (s : State) : (emit evs s).buf = s.buf := rfl
@[simp] theorem emit_bufLen (evs : List PortEvent) (s : State) : (emit evs s).bufLen = s.bufLen := rfl
@[simp] theorem emit_bufPos (evs : List PortEvent) (s : State) : (emit evs s).bufPos = s.bufPos := rfl
@[simp] theorem emit_offset (evs : List PortEvent) (s : State) : (emit evs s).offset = s.offset := rfl
@[simp] theorem emit_maxValid (evs : List PortEvent) (s : State) : (emit evs s).maxValid = s.maxValid := rfl
@[simp] theorem emit_maxSize (evs : List PortEvent) (s : State) : (emit evs s).maxSize = s.maxSize := rfl
@[simp] theorem emit_inbox (evs : List PortEvent) (s : State) : (emit evs s).inbox = s.inbox := rfl
@[simp] theorem emit_seedIn (evs : List PortEvent) (s : State) : (emit evs s).seedIn = s.seedIn := rfl
@[simp] theorem emit_rndIn (evs : List PortEvent) (s : State) : (emit evs s).rndIn = s.rndIn := rfl
@[simp] theorem emit_sinkIn (evs : List PortEvent) (s : State) : (emit evs s).sinkIn = s.sinkIn := rfl
@[simp] theorem emit_out (evs : List PortEvent) (s : State) : (emit evs s).out = s.out ++ evs := rfl
@[simp] theorem emit_draws (evs : List PortEvent) (s : State) : (emit evs s).draws = s.draws := rfl

/-! ### respond -/

@[simp] theorem respond_ready (st : Status) (v : Nat) (data : List Byte) (s : State) : (respond st v data s).ready = s.ready := rfl
@[simp] theorem respond_key (st : Status) (v : Nat) (data : List Byte) (s : State) : (respond st v data s).key = s.key := rfl
@[simp] theorem respond_ctr (st : Status) (v : Nat) (data : List Byte) (s : State) : (respond st v data s).ctr = s.ctr := rfl
@[simp] theorem respond_half (st : Status) (v : Nat) (data : List Byte) (s : State) : (respond st v data s).half = s.half := rfl
@[simp] theorem respond_buf (st : Status) (v : Nat) (data : List Byte) (s : State) : (respond st v data s).buf = s.buf := rfl
@[simp] theorem respond_bufLen (st : Status) (v : Nat) (data : List Byte) (s : State) : (respond st v data s).bufLen = s.bufLen := rfl
@[simp] theorem respond_bufPos (st : Status) (v : Nat) (data : List Byte) (s : State) : (respond st v data s).bufPos = s.bufPos := rfl
@[simp] theorem respond_offset (st : Status) (v : Nat) (data : List Byte) (s : State) : (respond st v data s).offset = s.offset := rfl
@[simp] theorem respond_maxValid (st : Status) (v : Nat) (data : List Byte) (s : State) : (respond st v data s).maxValid = s.maxValid := rfl
@[simp] theorem respond_maxSize (st : Status) (v : Nat) (data : List Byte) (s : State) : (respond st v data s).maxSize = s.maxSize := rfl
@[simp] theorem respond_inbox (st : Status) (v : Nat) (data : List Byte) (s : State) : (respond st v data s).inbox = s.inbox := rfl
@[simp] theorem respond_seedIn (st : Status) (v : Nat) (data : List Byte) (s : State) : (respond st v data s).seedIn = s.seedIn := rfl
@[simp] theorem respond_rndIn (st : Status) (v : Nat) (data : List Byte) (s : State) : (respond st v data s).rndIn = s.rndIn := rfl
@[simp] theorem respond_sinkIn (st : Status) (v : Nat) (data : List Byte) (s : State) : (respond st v data s).sinkIn = s.sinkIn := rfl
@[simp] theorem respond_out (st : Status) (v : Nat) (data : List Byte) (s : State) : (respond st v data s).out = s.out ++ (dataEvents data ++ [.resp ⟨st, BitVec.ofNat 64 v⟩]) := rfl
@[simp] theorem respond_draws (st : Status) (v : Nat) (data : List Byte) (s : State) : (respond st v data s).draws = s.draws := rfl

/-! ### raise -/

@[simp] theorem raise_ready (st : Status) (s : State) : (raise st s).ready = s.ready := rfl
@[simp] theorem raise_key (st : Status) (s : State) : (raise st s).key = s.key := rfl
@[simp] theorem raise_ctr (st : Status) (s : State) : (raise st s).ctr = s.ctr := rfl
@[simp] theorem raise_half (st : Status) (s : State) : (raise st s).half = s.half := rfl
@[simp] theorem raise_buf (st : Status) (s : State) : (raise st s).buf = s.buf := rfl
@[simp] theorem raise_bufLen (st : Status) (s : State) : (raise st s).bufLen = s.bufLen := rfl
@[simp] theorem raise_bufPos (st : Status) (s : State) : (raise st s).bufPos = s.bufPos := rfl
@[simp] theorem raise_offset (st : Status) (s : State) : (raise st s).offset = s.offset := rfl
@[simp] theorem raise_maxValid (st : Status) (s : State) : (raise st s).maxValid = s.maxValid := rfl
@[simp] theorem raise_maxSize (st : Status) (s : State) : (raise st s).maxSize = s.maxSize := rfl
@[simp] theorem raise_inbox (st : Status) (s : State) : (raise st s).inbox = s.inbox := rfl
@[simp] theorem raise_seedIn (st : Status) (s : State) : (raise st s).seedIn = s.seedIn := rfl
@[simp] theorem raise_rndIn (st : Status) (s : State) : (raise st s).rndIn = s.rndIn := rfl
@[simp] theorem raise_sinkIn (st : Status) (s : State) : (raise st s).sinkIn = s.sinkIn := rfl
@[simp] theorem raise_out (st : Status) (s : State) : (raise st s).out = s.out ++ [.resp ⟨st, 0⟩] := rfl
@[simp] theorem raise_draws (st : Status) (s : State) : (raise st s).draws = s.draws := rfl

/-! ### takeSeed -/

@[simp] theorem takeSeed_ready (n : Nat) (s : State) : (takeSeed n s).2.ready = s.ready := rfl
@[simp] theorem takeSeed_key (n : Nat) (s : State) : (takeSeed n s).2.key = s.key := rfl
@[simp] theorem takeSeed_ctr (n : Nat) (s : State) : (takeSeed n s).2.ctr = s.ctr := rfl
@[simp] theorem takeSeed_half (n : Nat) (s : State) : (takeSeed n s).2.half = s.half := rfl
@[simp] theorem takeSeed_buf (n : Nat) (s : State) : (takeSeed n s).2.buf = s.buf := rfl
@[simp] theorem takeSeed_bufLen (n : Nat) (s : State) : (takeSeed n s).2.bufLen = s.bufLen := rfl
@[simp] theorem takeSeed_bufPos (n : Nat) (s : State) : (takeSeed n s).2.bufPos = s.bufPos := rfl
@[simp] theorem takeSeed_offset (n : Nat) (s : State) : (takeSeed n s).2.offset = s.offset := rfl
@[simp] theorem takeSeed_maxValid (n : Nat) (s : State) : (takeSeed n s).2.maxValid = s.maxValid := rfl
@[simp] theorem takeSeed_maxSize (n : Nat) (s : State) : (takeSeed n s).2.maxSize = s.maxSize := rfl
@[simp] theorem takeSeed_inbox (n : Nat) (s : State) : (takeSeed n s).2.inbox = s.inbox := rfl
@[simp] theorem takeSeed_seedIn (n : Nat) (s : State) : (takeSeed n s).2.seedIn = s.seedIn.drop n := rfl
@[simp] theorem takeSeed_rndIn (n : Nat) (s : State) : (takeSeed n s).2.rndIn = s.rndIn := rfl
@[simp] theorem takeSeed_sinkIn (n : Nat) (s : State) : (takeSeed n s).2.sinkIn = s.sinkIn := rfl
@[simp] theorem takeSeed_out (n : Nat) (s : State) : (takeSeed n s).2.out = s.out := rfl
@[simp] theorem takeSeed_draws (n : Nat) (s : State) : (takeSeed n s).2.draws = s.draws + (n - s.seedIn.length) := rfl

/-! ### takeRnd -/

@[simp] theorem takeRnd_ready (s : State) : (takeRnd s).2.ready = s.ready := rfl
@[simp] theorem takeRnd_key (s : State) : (takeRnd s).2.key = s.key := rfl
@[simp] theorem takeRnd_ctr (s : State) : (takeRnd s).2.ctr = s.ctr := rfl
@[simp] theorem takeRnd_half (s : State) : (takeRnd s).2.half = s.half := rfl
@[simp] theorem takeRnd_buf (s : State) : (takeRnd s).2.buf = s.buf := rfl
@[simp] theorem takeRnd_bufLen (s : State) : (takeRnd s).2.bufLen = s.bufLen := rfl
@[simp] theorem takeRnd_bufPos (s : State) : (takeRnd s).2.bufPos = s.bufPos := rfl
@[simp] theorem takeRnd_offset (s : State) : (takeRnd s).2.offset = s.offset := rfl
@[simp] theorem takeRnd_maxValid (s : State) : (takeRnd s).2.maxValid = s.maxValid := rfl
@[simp] theorem takeRnd_maxSize (s : State) : (takeRnd s).2.maxSize = s.maxSize := rfl
@[simp] theorem takeRnd_inbox (s : State) : (takeRnd s).2.inbox = s.inbox := rfl
@[simp] theorem takeRnd_seedIn (s : State) : (takeRnd s).2.seedIn = s.seedIn := rfl
@[simp] theorem takeRnd_rndIn (s : State) : (takeRnd s).2.rndIn = s.rndIn.drop Config.keySize := rfl
@[simp] theorem takeRnd_sinkIn (s : State) : (takeRnd s).2.sinkIn = s.sinkIn := rfl
@[simp] theorem takeRnd_out (s : State) : (takeRnd s).2.out = s.out := rfl
@[simp] theorem takeRnd_draws (s : State) : (takeRnd s).2.draws = s.draws + (Config.keySize - s.rndIn.length) := rfl

/-! ### sinkWrite -/

@[simp] theorem sinkWrite_ready (chunk : List Byte) (s : State) : (sinkWrite chunk s).2.ready = s.ready := rfl
@[simp] theorem sinkWrite_key (chunk : List Byte) (s : State) : (sinkWrite chunk s).2.key = s.key := rfl
@[simp] theorem sinkWrite_ctr (chunk : List Byte) (s : State) : (sinkWrite chunk s).2.ctr = s.ctr := rfl
@[simp] theorem sinkWrite_half (chunk : List Byte) (s : State) : (sinkWrite chunk s).2.half = s.half := rfl
@[simp] theorem sinkWrite_buf (chunk : List Byte) (s : State) : (sinkWrite chunk s).2.buf = s.buf := rfl
@[simp] theorem sinkWrite_bufLen (chunk : List Byte) (s : State) : (sinkWrite chunk s).2.bufLen = s.bufLen := rfl
@[simp] theorem sinkWrite_bufPos (chunk : List Byte) (s : State) : (sinkWrite chunk s).2.bufPos = s.bufPos := rfl
@[simp] theorem sinkWrite_offset (chunk : List Byte) (s : State) : (sinkWrite chunk s).2.offset = s.offset := rfl
@[simp] theorem sinkWrite_maxValid (chunk : List Byte) (s : State) : (sinkWrite chunk s).2.maxValid = s.maxValid := rfl
@[simp] theorem sinkWrite_maxSize (chunk : List Byte) (s : State) : (sinkWrite chunk s).2.maxSize = s.maxSize := rfl
@[simp] theorem sinkWrite_inbox (chunk : List Byte) (s : State) : (sinkWrite chunk s).2.inbox = s.inbox := rfl
@[simp] theorem sinkWrite_seedIn (chunk : List Byte) (s : State) : (sinkWrite chunk s).2.seedIn = s.seedIn := rfl
@[simp] theorem sinkWrite_rndIn (chunk : List Byte) (s : State) : (sinkWrite chunk s).2.rndIn = s.rndIn := rfl
@[simp] theorem sinkWrite_sinkIn (chunk : List Byte) (s : State) : (sinkWrite chunk s).2.sinkIn = s.sinkIn.tail := rfl
@[simp] theorem sinkWrite_out (chunk : List Byte) (s : State) : (sinkWrite chunk s).2.out = s.out ++ [.sinkWrite chunk (sinkAnswer s)] := rfl
@[simp] theorem sinkWrite_draws (chunk : List Byte) (s : State) : (sinkWrite chunk s).2.draws = s.draws + (1 - s.sinkIn.length) := rfl

/-! ### advanceUnit -/

@[simp] theorem advanceUnit_ready (s : State) : (advanceUnit s).ready = s.ready := rfl
@[simp] theorem advanceUnit_key (s : State) : (advanceUnit s).key = s.key := rfl
@[simp] theorem advanceUnit_ctr (s : State) : (advanceUnit s).ctr = if s.half then s.ctr + 1 else s.ctr := rfl
@[simp] theorem advanceUnit_half (s : State) : (advanceUnit s).half = !s.half := rfl
@[simp] theorem advanceUnit_buf (s : State) : (advanceUnit s).buf = s.buf := rfl
@[simp] theorem advanceUnit_bufLen (s : State) : (advanceUnit s).bufLen = s.bufLen := rfl
@[simp] theorem advanceUnit_bufPos (s : State) : (advanceUnit s).bufPos = s.bufPos := rfl
@[simp] theorem advanceUnit_offset (s : State) : (advanceUnit s).offset = s.offset := rfl
@[simp] theorem advanceUnit_maxValid (s : State) : (advanceUnit s).maxValid = s.maxValid := rfl
@[simp] theorem advanceUnit_maxSize (s : State) : (advanceUnit s).maxSize = s.maxSize := rfl
@[simp] theorem advanceUnit_inbox (s : State) : (advanceUnit s).inbox = s.inbox := rfl
@[simp] theorem advanceUnit_seedIn (s : State) : (advanceUnit s).seedIn = s.seedIn := rfl
@[simp] theorem advanceUnit_rndIn (s : State) : (advanceUnit s).rndIn = s.rndIn := rfl
@[simp] theorem advanceUnit_sinkIn (s : State) : (advanceUnit s).sinkIn = s.sinkIn := rfl
@[simp] theorem advanceUnit_out (s : State) : (advanceUnit s).out = s.out := rfl
@[simp] theorem advanceUnit_draws (s : State) : (advanceUnit s).draws = s.draws := rfl

/-! ### cipherAt -/

@[simp] theorem cipherAt_ready (u : Nat) (s : State) : (cipherAt u s).ready = s.ready := rfl
@[simp] theorem cipherAt_key (u : Nat) (s : State) : (cipherAt u s).key = s.key := rfl
@[simp] theorem cipherAt_ctr (u : Nat) (s : State) : (cipherAt u s).ctr = BitVec.ofNat 128 (Config.ctrInit + u / 2) := rfl
@[simp] theorem cipherAt_half (u : Nat) (s : State) : (cipherAt u s).half = (u % 2 == 1) := rfl
@[simp] theorem cipherAt_buf (u : Nat) (s : State) : (cipherAt u s).buf = s.buf := rfl
@[simp] theorem cipherAt_bufLen (u : Nat) (s : State) : (cipherAt u s).bufLen = s.bufLen := rfl
@[simp] theorem cipherAt_bufPos (u : Nat) (s : State) : (cipherAt u s).bufPos = s.bufPos := rfl
@[simp] theorem cipherAt_offset (u : Nat) (s : State) : (cipherAt u s).offset = s.offset := rfl
@[simp] theorem cipherAt_maxValid (u : Nat) (s : State) : (cipherAt u s).maxValid = s.maxValid := rfl
@[simp] theorem cipherAt_maxSize (u : Nat) (s : State) : (cipherAt u s).maxSize = s.maxSize := rfl
@[simp] theorem cipherAt_inbox (u : Nat) (s : State) : (cipherAt u s).inbox = s.inbox := rfl
@[simp] theorem cipherAt_seedIn (u : Nat) (s : State) : (cipherAt u s).seedIn = s.seedIn := rfl
@[simp] theorem cipherAt_rndIn (u : Nat) (s : State) : (cipherAt u s).rndIn = s.rndIn := rfl
@[simp] theorem cipherAt_sinkIn (u : Nat) (s : State) : (cipherAt u s).sinkIn = s.sinkIn := rfl
@[simp] theorem cipherAt_out (u : Nat) (s : State) : (cipherAt u s).out = s.out := rfl
@[simp] theorem cipherAt_draws (u : Nat) (s : State) : (cipherAt u s).draws = s.draws := rfl

/-! ### fillBuffer -/

@[simp] theorem fillBuffer_ready (s : State) : (fillBuffer s).ready = s.ready := rfl
@[simp] theorem fillBuffer_key (s : State) : (fillBuffer s).key = s.key := rfl
@[simp] theorem fillBuffer_ctr (s : State) : (fillBuffer s).ctr = if s.half then s.ctr + 1 else s.ctr := rfl
@[simp] theorem fillBuffer_half (s : State) : (fillBuffer s).half = !s.half := rfl
@[simp] theorem fillBuffer_buf (s : State) : (fillBuffer s).buf = currentUnit s := rfl
@[simp] theorem fillBuffer_bufLen (s : State) : (fillBuffer s).bufLen = 8 := rfl
@[simp] theorem fillBuffer_bufPos (s : State) : (fillBuffer s).bufPos = 0 := rfl
@[simp] theorem fillBuffer_offset (s : State) : (fillBuffer s).offset = s.offset := rfl
@[simp] theorem fillBuffer_maxValid (s : State) : (fillBuffer s).maxValid = s.maxValid := rfl
@[simp] theorem fillBuffer_maxSize (s : State) : (fillBuffer s).maxSize = s.maxSize := rfl
@[simp] theorem fillBuffer_inbox (s : State) : (fillBuffer s).inbox = s.inbox := rfl
@[simp] theorem fillBuffer_seedIn (s : State) : (fillBuffer s).seedIn = s.seedIn := rfl
@[simp] theorem fillBuffer_rndIn (s : State) : (fillBuffer s).rndIn = s.rndIn := rfl
@[simp] theorem fillBuffer_sinkIn (s : State) : (fillBuffer s).sinkIn = s.sinkIn := rfl
@[simp] theorem fillBuffer_out (s : State) : (fillBuffer s).out = s.out := rfl
@[simp] theorem fillBuffer_draws (s : State) : (fillBuffer s).draws = s.draws := rfl

/-! ### readFromBuffer -/

@[simp] theorem readFromBuffer_ready (n : Nat) (s : State) : (readFromBuffer n s).2.ready = s.ready := rfl
@[simp] theorem readFromBuffer_key (n : Nat) (s : State) : (readFromBuffer n s).2.key = s.key := rfl
@[simp] theorem readFromBuffer_ctr (n : Nat) (s : State) : (readFromBuffer n s).2.ctr = s.ctr := rfl
@[simp] theorem readFromBuffer_half (n : Nat) (s : State) : (readFromBuffer n s).2.half = s.half := rfl
@[simp] theorem readFromBuffer_buf (n : Nat) (s : State) : (readFromBuffer n s).2.buf = s.buf := rfl
@[simp] theorem readFromBuffer_bufLen (n : Nat) (s : State) : (readFromBuffer n s).2.bufLen = s.bufLen := rfl
@[simp] theorem readFromBuffer_bufPos (n : Nat) (s : State) : (readFromBuffer n s).2.bufPos = BitVec.ofNat 4 (s.bufPos.toNat + bufferTake n s) := rfl
@[simp] theorem readFromBuffer_offset (n : Nat) (s : State) : (readFromBuffer n s).2.offset = s.offset := rfl
@[simp] theorem readFromBuffer_maxValid (n : Nat) (s : State) : (readFromBuffer n s).2.maxValid = s.maxValid := rfl
@[simp] theorem readFromBuffer_maxSize (n : Nat) (s : State) : (readFromBuffer n s).2.maxSize = s.maxSize := rfl
@[simp] theorem readFromBuffer_inbox (n : Nat) (s : State) : (readFromBuffer n s).2.inbox = s.inbox := rfl
@[simp] theorem readFromBuffer_seedIn (n : Nat) (s : State) : (readFromBuffer n s).2.seedIn = s.seedIn := rfl
@[simp] theorem readFromBuffer_rndIn (n : Nat) (s : State) : (readFromBuffer n s).2.rndIn = s.rndIn := rfl
@[simp] theorem readFromBuffer_sinkIn (n : Nat) (s : State) : (readFromBuffer n s).2.sinkIn = s.sinkIn := rfl
@[simp] theorem readFromBuffer_out (n : Nat) (s : State) : (readFromBuffer n s).2.out = s.out := rfl
@[simp] theorem readFromBuffer_draws (n : Nat) (s : State) : (readFromBuffer n s).2.draws = s.draws := rfl

/-! ### seekBuffer -/

@[simp] theorem seekBuffer_ready (pos : Nat) (s : State) : (seekBuffer pos s).ready = s.ready := rfl
@[simp] theorem seekBuffer_key (pos : Nat) (s : State) : (seekBuffer pos s).key = s.key := rfl
@[simp] theorem seekBuffer_ctr (pos : Nat) (s : State) : (seekBuffer pos s).ctr = s.ctr := rfl
@[simp] theorem seekBuffer_half (pos : Nat) (s : State) : (seekBuffer pos s).half = s.half := rfl
@[simp] theorem seekBuffer_buf (pos : Nat) (s : State) : (seekBuffer pos s).buf = s.buf := rfl
@[simp] theorem seekBuffer_bufLen (pos : Nat) (s : State) : (seekBuffer pos s).bufLen = s.bufLen := rfl
@[simp] theorem seekBuffer_bufPos (pos : Nat) (s : State) : (seekBuffer pos s).bufPos = BitVec.ofNat 4 pos := rfl
@[simp] theorem seekBuffer_offset (pos : Nat) (s : State) : (seekBuffer pos s).offset = s.offset := rfl
@[simp] theorem seekBuffer_maxValid (pos : Nat) (s : State) : (seekBuffer pos s).maxValid = s.maxValid := rfl
@[simp] theorem seekBuffer_maxSize (pos : Nat) (s : State) : (seekBuffer pos s).maxSize = s.maxSize := rfl
@[simp] theorem seekBuffer_inbox (pos : Nat) (s : State) : (seekBuffer pos s).inbox = s.inbox := rfl
@[simp] theorem seekBuffer_seedIn (pos : Nat) (s : State) : (seekBuffer pos s).seedIn = s.seedIn := rfl
@[simp] theorem seekBuffer_rndIn (pos : Nat) (s : State) : (seekBuffer pos s).rndIn = s.rndIn := rfl
@[simp] theorem seekBuffer_sinkIn (pos : Nat) (s : State) : (seekBuffer pos s).sinkIn = s.sinkIn := rfl
@[simp] theorem seekBuffer_out (pos : Nat) (s : State) : (seekBuffer pos s).out = s.out := rfl
@[simp] theorem seekBuffer_draws (pos : Nat) (s : State) : (seekBuffer pos s).draws = s.draws := rfl

/-! ### clearBuffer -/

@[simp] theorem clearBuffer_ready (s : State) : (clearBuffer s).ready = s.ready := rfl
@[simp] theorem clearBuffer_key (s : State) : (clearBuffer s).key = s.key := rfl
@[simp] theorem clearBuffer_ctr (s : State) : (clearBuffer s).ctr = s.ctr := rfl
@[simp] theorem clearBuffer_half (s : State) : (clearBuffer s).half = s.half := rfl
@[simp] theorem clearBuffer_buf (s : State) : (clearBuffer s).buf = 0 := rfl
@[simp] theorem clearBuffer_bufLen (s : State) : (clearBuffer s).bufLen = 0 := rfl
@[simp] theorem clearBuffer_bufPos (s : State) : (clearBuffer s).bufPos = 0 := rfl
@[simp] theorem clearBuffer_offset (s : State) : (clearBuffer s).offset = s.offset := rfl
@[simp] theorem clearBuffer_maxValid (s : State) : (clearBuffer s).maxValid = s.maxValid := rfl
@[simp] theorem clearBuffer_maxSize (s : State) : (clearBuffer s).maxSize = s.maxSize := rfl
@[simp] theorem clearBuffer_inbox (s : State) : (clearBuffer s).inbox = s.inbox := rfl
@[simp] theorem clearBuffer_seedIn (s : State) : (clearBuffer s).seedIn = s.seedIn := rfl
@[simp] theorem clearBuffer_rndIn (s : State) : (clearBuffer s).rndIn = s.rndIn := rfl
@[simp] theorem clearBuffer_sinkIn (s : State) : (clearBuffer s).sinkIn = s.sinkIn := rfl
@[simp] theorem clearBuffer_out (s : State) : (clearBuffer s).out = s.out := rfl
@[simp] theorem clearBuffer_draws (s : State) : (clearBuffer s).draws = s.draws := rfl

/-! ### advanceOffset -/

@[simp] theorem advanceOffset_ready (n : Nat) (s : State) : (advanceOffset n s).ready = s.ready := rfl
@[simp] theorem advanceOffset_key (n : Nat) (s : State) : (advanceOffset n s).key = s.key := rfl
@[simp] theorem advanceOffset_ctr (n : Nat) (s : State) : (advanceOffset n s).ctr = s.ctr := rfl
@[simp] theorem advanceOffset_half (n : Nat) (s : State) : (advanceOffset n s).half = s.half := rfl
@[simp] theorem advanceOffset_buf (n : Nat) (s : State) : (advanceOffset n s).buf = s.buf := rfl
@[simp] theorem advanceOffset_bufLen (n : Nat) (s : State) : (advanceOffset n s).bufLen = s.bufLen := rfl
@[simp] theorem advanceOffset_bufPos (n : Nat) (s : State) : (advanceOffset n s).bufPos = s.bufPos := rfl
@[simp] theorem advanceOffset_offset (n : Nat) (s : State) : (advanceOffset n s).offset = BitVec.ofNat 64 (s.offset.toNat + n) := rfl
@[simp] theorem advanceOffset_maxValid (n : Nat) (s : State) : (advanceOffset n s).maxValid = s.maxValid := rfl
@[simp] theorem advanceOffset_maxSize (n : Nat) (s : State) : (advanceOffset n s).maxSize = s.maxSize := rfl
@[simp] theorem advanceOffset_inbox (n : Nat) (s : State) : (advanceOffset n s).inbox = s.inbox := rfl
@[simp] theorem advanceOffset_seedIn (n : Nat) (s : State) : (advanceOffset n s).seedIn = s.seedIn := rfl
@[simp] theorem advanceOffset_rndIn (n : Nat) (s : State) : (advanceOffset n s).rndIn = s.rndIn := rfl
@[simp] theorem advanceOffset_sinkIn (n : Nat) (s : State) : (advanceOffset n s).sinkIn = s.sinkIn := rfl
@[simp] theorem advanceOffset_out (n : Nat) (s : State) : (advanceOffset n s).out = s.out := rfl
@[simp] theorem advanceOffset_draws (n : Nat) (s : State) : (advanceOffset n s).draws = s.draws := rfl

/-! ### setOffset -/

@[simp] theorem setOffset_ready (t : Nat) (s : State) : (setOffset t s).ready = s.ready := rfl
@[simp] theorem setOffset_key (t : Nat) (s : State) : (setOffset t s).key = s.key := rfl
@[simp] theorem setOffset_ctr (t : Nat) (s : State) : (setOffset t s).ctr = s.ctr := rfl
@[simp] theorem setOffset_half (t : Nat) (s : State) : (setOffset t s).half = s.half := rfl
@[simp] theorem setOffset_buf (t : Nat) (s : State) : (setOffset t s).buf = s.buf := rfl
@[simp] theorem setOffset_bufLen (t : Nat) (s : State) : (setOffset t s).bufLen = s.bufLen := rfl
@[simp] theorem setOffset_bufPos (t : Nat) (s : State) : (setOffset t s).bufPos = s.bufPos := rfl
@[simp] theorem setOffset_offset (t : Nat) (s : State) : (setOffset t s).offset = BitVec.ofNat 64 t := rfl
@[simp] theorem setOffset_maxValid (t : Nat) (s : State) : (setOffset t s).maxValid = s.maxValid := rfl
@[simp] theorem setOffset_maxSize (t : Nat) (s : State) : (setOffset t s).maxSize = s.maxSize := rfl
@[simp] theorem setOffset_inbox (t : Nat) (s : State) : (setOffset t s).inbox = s.inbox := rfl
@[simp] theorem setOffset_seedIn (t : Nat) (s : State) : (setOffset t s).seedIn = s.seedIn := rfl
@[simp] theorem setOffset_rndIn (t : Nat) (s : State) : (setOffset t s).rndIn = s.rndIn := rfl
@[simp] theorem setOffset_sinkIn (t : Nat) (s : State) : (setOffset t s).sinkIn = s.sinkIn := rfl
@[simp] theorem setOffset_out (t : Nat) (s : State) : (setOffset t s).out = s.out := rfl
@[simp] theorem setOffset_draws (t : Nat) (s : State) : (setOffset t s).draws = s.draws := rfl

/-! ### assertReset -/

@[simp] theorem assertReset_ready (s : State) : (assertReset s).ready = false := rfl
@[simp] theorem assertReset_key (s : State) : (assertReset s).key = Config.freeKey s.draws := rfl
@[simp] theorem assertReset_ctr (s : State) : (assertReset s).ctr = Config.freeCtr s.draws := rfl
@[simp] theorem assertReset_half (s : State) : (assertReset s).half = Config.freeHalf s.draws := rfl
@[simp] theorem assertReset_buf (s : State) : (assertReset s).buf = Config.freeBuf s.draws := rfl
@[simp] theorem assertReset_bufLen (s : State) : (assertReset s).bufLen = Config.freeBufLen s.draws := rfl
@[simp] theorem assertReset_bufPos (s : State) : (assertReset s).bufPos = Config.freeBufPos s.draws := rfl
@[simp] theorem assertReset_offset (s : State) : (assertReset s).offset = Config.freeOffset s.draws := rfl
@[simp] theorem assertReset_maxValid (s : State) : (assertReset s).maxValid = Config.freeMaxValid s.draws := rfl
@[simp] theorem assertReset_maxSize (s : State) : (assertReset s).maxSize = Config.freeMaxSize s.draws := rfl
@[simp] theorem assertReset_inbox (s : State) : (assertReset s).inbox = s.inbox := rfl
@[simp] theorem assertReset_seedIn (s : State) : (assertReset s).seedIn = s.seedIn := rfl
@[simp] theorem assertReset_rndIn (s : State) : (assertReset s).rndIn = s.rndIn := rfl
@[simp] theorem assertReset_sinkIn (s : State) : (assertReset s).sinkIn = s.sinkIn := rfl
@[simp] theorem assertReset_out (s : State) : (assertReset s).out = s.out := rfl
@[simp] theorem assertReset_draws (s : State) : (assertReset s).draws = s.draws + 1 := rfl

/-! ### startLifetime -/

@[simp] theorem startLifetime_ready (k : Key) (m : Option Nat) (s : State) : (startLifetime k m s).ready = true := rfl
@[simp] theorem startLifetime_key (k : Key) (m : Option Nat) (s : State) : (startLifetime k m s).key = k := rfl
@[simp] theorem startLifetime_ctr (k : Key) (m : Option Nat) (s : State) : (startLifetime k m s).ctr = BitVec.ofNat 128 Config.ctrInit := rfl
@[simp] theorem startLifetime_half (k : Key) (m : Option Nat) (s : State) : (startLifetime k m s).half = false := rfl
@[simp] theorem startLifetime_buf (k : Key) (m : Option Nat) (s : State) : (startLifetime k m s).buf = 0 := rfl
@[simp] theorem startLifetime_bufLen (k : Key) (m : Option Nat) (s : State) : (startLifetime k m s).bufLen = 0 := rfl
@[simp] theorem startLifetime_bufPos (k : Key) (m : Option Nat) (s : State) : (startLifetime k m s).bufPos = 0 := rfl
@[simp] theorem startLifetime_offset (k : Key) (m : Option Nat) (s : State) : (startLifetime k m s).offset = 0 := rfl
@[simp] theorem startLifetime_maxValid (k : Key) (m : Option Nat) (s : State) : (startLifetime k m s).maxValid = m.isSome := rfl
@[simp] theorem startLifetime_maxSize (k : Key) (m : Option Nat) (s : State) : (startLifetime k m s).maxSize = BitVec.ofNat 64 (m.getD 0) := rfl
@[simp] theorem startLifetime_inbox (k : Key) (m : Option Nat) (s : State) : (startLifetime k m s).inbox = s.inbox := rfl
@[simp] theorem startLifetime_seedIn (k : Key) (m : Option Nat) (s : State) : (startLifetime k m s).seedIn = s.seedIn := rfl
@[simp] theorem startLifetime_rndIn (k : Key) (m : Option Nat) (s : State) : (startLifetime k m s).rndIn = s.rndIn := rfl
@[simp] theorem startLifetime_sinkIn (k : Key) (m : Option Nat) (s : State) : (startLifetime k m s).sinkIn = s.sinkIn := rfl
@[simp] theorem startLifetime_out (k : Key) (m : Option Nat) (s : State) : (startLifetime k m s).out = s.out ++ [.resp ⟨.ok, 0⟩] := rfl
@[simp] theorem startLifetime_draws (k : Key) (m : Option Nat) (s : State) : (startLifetime k m s).draws = s.draws := rfl

end Sys2Proof.Machine
end

