-- ==== Sys2Proof/Laws/Stream.lean ====
section
/-! SUPPORT. The stream address space: what a read of it gives, piece by piece, and how the bytes of a
unit lie in it (spec rules R60, R130). -/

namespace Sys2Proof.Machine

@[simp] theorem be_length (n v : Nat) : (be n v).length = n := by
  induction n generalizing v with
  | zero => rfl
  | succ n ih => simp [be, ih]

theorem be_eight (v : Nat) :
    be 8 v = (List.range 8).map fun i => BitVec.ofNat 8 (v / 256 ^ (7 - i)) := rfl

@[simp] theorem memRead_length (key : Key) (a n : Nat) : (memRead key a n).length = n := by
  simp [memRead]

@[simp] theorem memRead_zero (key : Key) (a : Nat) : memRead key a 0 = [] := rfl

theorem memRead_add (key : Key) (a m n : Nat) :
    memRead key a (m + n) = memRead key a m ++ memRead key (a + m) n := by
  simp [memRead, List.range_add, Nat.add_assoc]

theorem memRead_take (key : Key) (a m n : Nat) : (memRead key a n).take m = memRead key a (min m n) := by
  simp [memRead, ← List.map_take, List.take_range]

theorem memRead_drop (key : Key) (a m n : Nat) : (memRead key a n).drop m = memRead key (a + m) (n - m) := by
  rcases Nat.le_total m n with h | h
  · obtain ⟨k, rfl⟩ := Nat.exists_eq_add_of_le h
    rw [memRead_add, List.drop_left' (memRead_length ..), Nat.add_sub_cancel_left]
  · rw [List.drop_of_length_le (by simpa using h), Nat.sub_eq_zero_of_le h, memRead_zero]

/-- The bytes of half a block are eight of the block's bytes. -/
theorem be_blockHalf (b : Block) (h : Bool) :
    be 8 (blockHalf b h).toNat = (List.range 8).map fun i => blockByte b (8 * h.toNat + i) := by
  have hb := b.isLt
  rw [be_eight]
  refine List.map_congr_left fun i hi => BitVec.eq_of_toNat_eq ?_
  have : i < 8 := by simpa using hi
  interval_cases i <;> cases h <;>
    simp [blockHalf, blockByte, BitVec.extractLsb'_toNat, Nat.shiftRight_eq_div_pow] <;> omega

/-- The bytes of unit `j` are `S[8j .. 8j+8)` (R130). -/
theorem be_streamUnit (key : Key) (j : Nat) : be 8 (streamUnit key j).toNat = memRead key (8 * j) 8 := by
  rw [streamUnit, be_blockHalf, memRead]
  refine List.map_congr_left fun i hi => ?_
  have hi : i < 8 := by simpa using hi
  have hq : (8 * j + i) / 16 = j / 2 := by omega
  have hr : (8 * j + i) % 16 = 8 * (j % 2 == 1).toNat + i := by
    rcases Nat.mod_two_eq_zero_or_one j with h | h <;> (simp [h]; omega)
  rw [streamByte, hq, hr]

/-- The unit the cipher context stands on is unit `nxt` (R31, R133). -/
theorem currentUnit_eq (s : State) : currentUnit s = streamUnit s.key s.nxt := by
  have hq : s.nxt / 2 = s.ctr.toNat := by
    cases h : s.half <;> (simp [State.nxt, Config.ctrInit, h]; try omega)
  have hr : (s.nxt % 2 == 1) = s.half := by
    cases h : s.half <;> simp [State.nxt, Config.ctrInit, h]
  rw [currentUnit, streamUnit, streamBlock, hq, hr, Config.ctrInit, Nat.zero_add, BitVec.ofNat_toNat,
    BitVec.setWidth_eq]

end Sys2Proof.Machine
end

