-- ==== Sys2Proof/Laws/Bytes.lean ====
section
/-! SUPPORT. `be` and `ofBe` undo each other (spec rule R12). -/

namespace Sys2Proof.Machine

theorem foldl_ofBe (b : List Byte) (v : Nat) :
    b.foldl (fun v (x : Byte) => v * 256 + x.toNat) v = v * 256 ^ b.length + ofBe b := by
  induction b generalizing v with
  | nil => simp [ofBe]
  | cons x xs ih => simp only [List.foldl_cons, ofBe, List.length_cons]; rw [ih, ih]; ring

theorem ofBe_append (a b : List Byte) : ofBe (a ++ b) = ofBe a * 256 ^ b.length + ofBe b := by
  rw [ofBe, List.foldl_append, foldl_ofBe, ← ofBe]

theorem ofBe_cons (x : Byte) (xs : List Byte) : ofBe (x :: xs) = x.toNat * 256 ^ xs.length + ofBe xs := by
  simpa [ofBe] using ofBe_append [x] xs

/-- A byte string of length `n` encodes a number below `256 ^ n`. -/
theorem ofBe_lt (b : List Byte) : ofBe b < 256 ^ b.length := by
  induction b with
  | nil => simp [ofBe]
  | cons x xs ih =>
    have hx := x.isLt
    rw [ofBe_cons, List.length_cons, pow_succ]
    nlinarith

/-- Only the last `n` bytes of a number matter to `be n`. -/
theorem be_mod (n v : Nat) : be n (v % 256 ^ n) = be n v := by
  suffices ∀ n v w, be n (w * 256 ^ n + v) = be n v by
    conv_rhs => rw [← Nat.div_add_mod' v (256 ^ n)]
    rw [this]
  intro n
  induction n with
  | zero => intro v w; rfl
  | succ n ih =>
    intro v w
    have hd : (w * 256 ^ (n + 1) + v) / 256 ^ n = w * 256 + v / 256 ^ n := by
      rw [show w * 256 ^ (n + 1) + v = v + 256 ^ n * (w * 256) by ring, Nat.add_mul_div_left _ _ (by positivity)]
      omega
    have hr : be n (w * 256 ^ (n + 1) + v) = be n v := by
      rw [show w * 256 ^ (n + 1) = w * 256 * 256 ^ n by ring]; exact ih v _
    rw [be, be, hd, hr]
    congr 1
    apply BitVec.eq_of_toNat_eq; simp

/-- `be` undoes `ofBe`. -/
theorem be_ofBe (b : List Byte) : be b.length (ofBe b) = b := by
  induction b with
  | nil => rfl
  | cons x xs ih =>
    have hlt := ofBe_lt xs
    rw [List.length_cons, be]
    congr 1
    · rw [ofBe_cons, Nat.mul_comm, Nat.mul_add_div (by positivity), Nat.div_eq_of_lt hlt]
      apply BitVec.eq_of_toNat_eq; simp
    · rw [← be_mod, ofBe_cons, Nat.mul_comm, Nat.mul_add_mod, Nat.mod_eq_of_lt hlt, ih]

/-- `ofBe` undoes `be` on the numbers that fit. -/
theorem ofBe_be (n v : Nat) (h : v < 256 ^ n) : ofBe (be n v) = v := by
  induction n generalizing v with
  | zero => simp at h; simp [be, ofBe, h]
  | succ n ih =>
    have hpos : 0 < 256 ^ n := by positivity
    have hq : v / 256 ^ n < 256 := by rw [Nat.div_lt_iff_lt_mul hpos, Nat.mul_comm]; rwa [pow_succ] at h
    rw [be, ofBe_cons, be_length, BitVec.toNat_ofNat, Nat.mod_eq_of_lt hq, ← be_mod,
      ih _ (Nat.mod_lt _ hpos), Nat.div_add_mod']

end Sys2Proof.Machine
end

