-- ==== Sys2Proof/Laws/Ops.lean ====
section
/-! SUPPORT. What each shared operation does, said once (spec files 41 to 44): later proofs cite these
lemmas instead of unfolding the operations. -/

namespace Sys2Proof.Machine

/-! ### Frames -/

theorem SameBut.refl (s : State) : SameBut s s := ⟨rfl, rfl, rfl, rfl, rfl, rfl, rfl⟩

theorem SameBut.trans {s t u : State} (h : SameBut s t) (k : SameBut t u) : SameBut s u :=
  ⟨h.1.trans k.1, h.2.trans k.2, h.3.trans k.3, h.4.trans k.4, h.5.trans k.5, h.6.trans k.6, h.7.trans k.7⟩

theorem SamePorts.refl (s : State) : SamePorts s s := ⟨rfl, rfl, rfl, rfl, rfl, rfl⟩

theorem SamePorts.trans {s t u : State} (h : SamePorts s t) (k : SamePorts t u) : SamePorts s u :=
  ⟨h.1.trans k.1, h.2.trans k.2, h.3.trans k.3, h.4.trans k.4, h.5.trans k.5, h.6.trans k.6⟩

/-! ### `READ_RAW` and `FILL_BUFFER` -/

/-- The counter stands below its last value, so the next unit does not wrap it (R136). -/
theorem advanceUnit_nxt (s : State) (h : s.ctr.toNat + 1 < 2 ^ 128) : (advanceUnit s).nxt = s.nxt + 1 := by
  have h1 : (s.ctr + 1).toNat = s.ctr.toNat + 1 := by
    rw [BitVec.toNat_add]; exact Nat.mod_eq_of_lt (by simpa using h)
  cases hh : s.half
  · simp [State.nxt, Config.ctrInit, hh]
  · simp only [State.nxt, advanceUnit_ctr, advanceUnit_half, hh, if_true, h1, Config.ctrInit]
    simp; omega

/-- What `READ_RAW` leaves alone (R133): all but `ctr` and `half`. -/
theorem readUnits_frame (q : Nat) (s : State) :
    SameBut s (readUnits q s).2 ∧ SamePorts s (readUnits q s).2 ∧ (readUnits q s).2.buf = s.buf ∧
      (readUnits q s).2.bufLen = s.bufLen ∧ (readUnits q s).2.bufPos = s.bufPos ∧
      (readUnits q s).2.offset = s.offset := by
  induction q generalizing s with
  | zero => exact ⟨.refl s, .refl s, rfl, rfl, rfl, rfl⟩
  | succ q ih =>
    obtain ⟨h1, h2, h3⟩ := ih (advanceUnit s)
    have e1 : SameBut s (advanceUnit s) := ⟨rfl, rfl, rfl, rfl, rfl, rfl, rfl⟩
    have e2 : SamePorts s (advanceUnit s) := ⟨rfl, rfl, rfl, rfl, rfl, rfl⟩
    exact ⟨e1.trans h1, e2.trans h2, h3⟩

theorem ctr_le_nxt (s : State) : s.ctr.toNat ≤ s.nxt := by
  simp only [State.nxt, Config.ctrInit]; omega

/-- `READ_RAW(8·q)` returns `S[8·nxt .. 8·nxt + 8·q)` and moves on by `q` units (R133). -/
theorem readUnits_spec (q : Nat) (s : State) (h : s.nxt + q < 2 ^ 127) :
    (readUnits q s).1 = memRead s.key (8 * s.nxt) (8 * q) ∧ (readUnits q s).2.nxt = s.nxt + q := by
  induction q generalizing s with
  | zero => exact ⟨rfl, rfl⟩
  | succ q ih =>
    have hc := ctr_le_nxt s
    have hn : (advanceUnit s).nxt = s.nxt + 1 := advanceUnit_nxt s (by omega)
    obtain ⟨h1, h2⟩ := ih (advanceUnit s) (by omega)
    refine ⟨?_, by rw [readUnits, h2, hn]; omega⟩
    rw [readUnits, h1, hn, currentUnit_eq, be_streamUnit, advanceUnit_key,
      show 8 * (q + 1) = 8 + 8 * q by omega, memRead_add, show 8 * (s.nxt + 1) = 8 * s.nxt + 8 by omega]

@[simp] theorem readUnits_length (q : Nat) (s : State) : (readUnits q s).1.length = 8 * q := by
  induction q generalizing s with
  | zero => rfl
  | succ q ih => simp [readUnits, ih]; omega

theorem fillBuffer_nxt (s : State) (h : s.ctr.toNat + 1 < 2 ^ 128) : (fillBuffer s).nxt = s.nxt + 1 :=
  advanceUnit_nxt s h

@[simp] theorem fillBuffer_rem (s : State) : (fillBuffer s).rem = 8 := rfl

/-- `FILL_BUFFER` loads unit `nxt` (R152). -/
theorem fillBuffer_bufBytes (s : State) : (fillBuffer s).bufBytes = memRead s.key (8 * s.nxt) 8 := by
  rw [State.bufBytes, fillBuffer_buf, currentUnit_eq, be_streamUnit]

/-! ### Consistent states -/

theorem State.Consistent.len_le {s : State} (h : s.Consistent) : s.bufLen.toNat ≤ 8 := by
  rcases h.len with h | h <;> simp [h]

theorem State.Consistent.pos_add_rem {s : State} (h : s.Consistent) :
    s.bufPos.toNat + s.rem = s.bufLen.toNat := by
  have := h.pos
  simp only [State.rem]; omega

theorem State.Consistent.nxt_le {s : State} (h : s.Consistent) : s.nxt ≤ 2 ^ 60 + 1 := by
  have h1 := h.aligned
  have h2 := h.range
  have h3 := h.len_le
  have h4 := h.pos_add_rem
  simp only [Config.offsetMax] at h2
  omega

/-- `READ_FROM_BUFFER(n)` on a consistent buffer: `min(n, rem)` bytes of the stream from the position on, the
cursor past them (R153). -/
theorem readFromBuffer_spec {s : State} (h : s.Consistent) (n : Nat) :
    (readFromBuffer n s).1 = memRead s.key s.offset.toNat (min n s.rem) ∧
      (readFromBuffer n s).2.bufPos.toNat = s.bufPos.toNat + min n s.rem := by
  have hl := h.len_le
  have hp := h.pos_add_rem
  constructor
  · have hu := congrArg (List.take (min n s.rem)) h.bytes
    rw [State.unconsumed, List.take_take, memRead_take] at hu
    simpa [readFromBuffer, bufferTake, Nat.min_assoc] using hu
  · simp only [readFromBuffer_bufPos, bufferTake, BitVec.toNat_ofNat]
    omega

/-- Reading `r` bytes, `1 ≤ r ≤ 7`, off a unit just loaded (R172 step 5). -/
theorem readTail_spec (r : Nat) (s : State) (hr : r < 8) (hc : s.nxt < 2 ^ 127) :
    (readTail r s).1 = memRead s.key (8 * s.nxt) r ∧
      (r > 0 → (readTail r s).2.bufPos.toNat = r ∧ (readTail r s).2.nxt = s.nxt + 1 ∧
        (readTail r s).2.bufLen = 8 ∧ (readTail r s).2.bufBytes = memRead s.key (8 * s.nxt) 8) := by
  have hx := ctr_le_nxt s
  rcases Nat.eq_zero_or_pos r with rfl | h0
  · simp [readTail]
  · have ht : bufferTake r (fillBuffer s) = r := by
      simp only [bufferTake, fillBuffer_rem]; omega
    rw [readTail, if_pos h0]
    refine ⟨?_, fun _ => ⟨?_, fillBuffer_nxt s (by omega), rfl, fillBuffer_bufBytes s⟩⟩
    · simp only [readFromBuffer, ht, fillBuffer_bufBytes, fillBuffer_bufPos]
      simp [memRead_take, Nat.min_eq_left (Nat.le_of_lt hr)]
    · simp only [readFromBuffer_bufPos, ht, fillBuffer_bufPos, BitVec.toNat_ofNat]
      simp; omega

theorem readTail_frame (r : Nat) (s : State) :
    SameBut s (readTail r s).2 ∧ SamePorts s (readTail r s).2 ∧ (readTail r s).2.offset = s.offset := by
  unfold readTail
  split
  · exact ⟨⟨rfl, rfl, rfl, rfl, rfl, rfl, rfl⟩, ⟨rfl, rfl, rfl, rfl, rfl, rfl⟩, rfl⟩
  · exact ⟨.refl s, .refl s, rfl⟩

/-! ### `READ_CORE` -/

/-- What `READ_CORE` leaves alone (R39). -/
theorem readCore_frame (n : Nat) (s : State) :
    SameBut s (readCore n s).2 ∧ SamePorts s (readCore n s).2 := by
  let m := n - (readFromBuffer n s).1.length
  obtain ⟨h1, h2, -⟩ := readUnits_frame (m / 8) (readFromBuffer n s).2
  obtain ⟨k1, k2, -⟩ := readTail_frame (m % 8) (readUnits (m / 8) (readFromBuffer n s).2).2
  have e1 : SameBut s (readFromBuffer n s).2 := ⟨rfl, rfl, rfl, rfl, rfl, rfl, rfl⟩
  have e2 : SamePorts s (readFromBuffer n s).2 := ⟨rfl, rfl, rfl, rfl, rfl, rfl⟩
  exact ⟨(e1.trans h1).trans ⟨k1.1, k1.2, k1.3, k1.4, k1.5, k1.6, k1.7⟩,
    (e2.trans h2).trans ⟨k2.1, k2.2, k2.3, k2.4, k2.5, k2.6⟩⟩

/-- A state with a drained or part-consumed buffer is consistent when its cursor and position say so. -/
theorem Consistent.of_filled {t : State} {key : Key} {u r : Nat} (hk : t.key = key) (hl : t.bufLen = 8)
    (hr : r ≤ 8) (hp : t.bufPos.toNat = r) (hb : t.bufBytes = memRead key (8 * u) 8) (hn : t.nxt = u + 1)
    (ho : t.offset.toNat = 8 * u + r) (hm : t.offset.toNat ≤ Config.offsetMax) : t.Consistent := by
  have hrem : t.rem = 8 - r := by simp [State.rem, hl, hp]
  refine ⟨.inr hl, by simpa [hl, hp] using hr, by rw [ho, hrem, hn]; omega, ?_, hm⟩
  rw [State.unconsumed, hb, hp, memRead_drop, hrem, hk, ho, memRead_take, Nat.min_self]

theorem Consistent.of_empty {t : State} {u : Nat} (hl : t.bufLen = 0 ∨ t.bufLen = 8)
    (hp : t.bufPos.toNat = t.bufLen.toNat) (hn : t.nxt = u) (ho : t.offset.toNat = 8 * u)
    (hm : t.offset.toNat ≤ Config.offsetMax) : t.Consistent := by
  have hrem : t.rem = 0 := by simp [State.rem, hp]
  refine ⟨hl, Nat.le_of_eq hp, by rw [ho, hrem, hn]; omega, ?_, hm⟩
  rw [State.unconsumed, hrem, List.take_zero, memRead_zero]

/-- `READ_CORE(n)` delivers `S[offset .. offset + n)`, moves the position past them and keeps `INV`
(R170, R176). -/
theorem readCore_spec {s : State} (h : s.Consistent) (n : Nat) (hn : s.offset.toNat + n ≤ Config.offsetMax) :
    (readCore n s).1 = memRead s.key s.offset.toNat n ∧
      (readCore n s).2.offset.toNat = s.offset.toNat + n ∧ (readCore n s).2.Consistent := by
  obtain ⟨hd, hdp⟩ := readFromBuffer_spec h n
  have hnx := h.nxt_le
  have hal := h.aligned
  have hpr := h.pos_add_rem
  have hmax := hn
  simp only [Config.offsetMax] at hmax
  generalize hD : readFromBuffer n s = D at hd hdp
  have hdl : D.1.length = min n s.rem := by rw [hd, memRead_length]
  have hDnxt : D.2.nxt = s.nxt := by rw [← hD]; rfl
  have hDkey : D.2.key = s.key := by rw [← hD]; rfl
  have hDoff : D.2.offset = s.offset := by rw [← hD]; rfl
  have hDlen : D.2.bufLen = s.bufLen := by rw [← hD]; rfl
  have hDbuf : D.2.bufBytes = s.bufBytes := by rw [← hD]; rfl
  generalize hm : n - D.1.length = m
  obtain ⟨hr1, hr2⟩ := readUnits_spec (m / 8) D.2 (by rw [hDnxt]; omega)
  obtain ⟨⟨-, hrk, -⟩, -, hrb, hrl, hrp, hro⟩ := readUnits_frame (m / 8) D.2
  generalize hR : readUnits (m / 8) D.2 = R at hr1 hr2 hrk hrb hrl hrp hro
  rw [hDnxt] at hr2
  obtain ⟨ht1, ht2⟩ := readTail_spec (m % 8) R.2 (Nat.mod_lt _ (by omega)) (by omega)
  obtain ⟨⟨-, htk, -⟩, -, hto⟩ := readTail_frame (m % 8) R.2
  have htz : m % 8 = 0 → (readTail (m % 8) R.2).2 = R.2 := fun h0 => by simp [readTail, h0]
  generalize hT : readTail (m % 8) R.2 = T at ht1 ht2 htk hto htz
  have hcore : readCore n s = (D.1 ++ R.1 ++ T.1, advanceOffset (D.1 ++ R.1 ++ T.1).length T.2) := by
    simp only [readCore, hD, hm, hR, hT]
  have hout : D.1 ++ R.1 ++ T.1 = memRead s.key s.offset.toNat n := by
    rcases Nat.le_total n s.rem with hle | hle
    · have hm0 : m = 0 := by omega
      rw [hd, hr1, ht1, hm0, Nat.min_eq_left hle]
      simp
    · have hoff : 8 * s.nxt = s.offset.toNat + s.rem := by omega
      have h8 : 8 * R.2.nxt = s.offset.toNat + s.rem + 8 * (m / 8) := by omega
      rw [hd, hr1, ht1, ← hrk, hDkey, hDnxt, h8, hoff, Nat.min_eq_right hle, List.append_assoc,
        ← memRead_add, ← memRead_add]
      congr 1; omega
  have hlen : (D.1 ++ R.1 ++ T.1).length = n := by rw [hout, memRead_length]
  have hToff : T.2.offset.toNat = s.offset.toNat := by rw [hto, hro, hDoff]
  have hnew : (advanceOffset n T.2).offset.toNat = s.offset.toNat + n := by
    rw [advanceOffset_offset, BitVec.toNat_ofNat, hToff]; exact Nat.mod_eq_of_lt (by omega)
  rw [hcore, hlen]
  refine ⟨hout, hnew, ?_⟩
  have hTkey : T.2.key = s.key := by rw [← htk, ← hrk, hDkey]
  have hrange : (advanceOffset n T.2).offset.toNat ≤ Config.offsetMax := by rw [hnew]; exact hn
  rcases Nat.eq_zero_or_pos (m % 8) with h0 | h0
  · have hTR := htz h0
    have hTnxt : (advanceOffset n T.2).nxt = s.nxt + m / 8 := by
      rw [← hr2, ← hTR]; rfl
    have hTlen : (advanceOffset n T.2).bufLen = s.bufLen := by
      rw [advanceOffset_bufLen, hTR, hrl, hDlen]
    have hTpos : (advanceOffset n T.2).bufPos.toNat = s.bufPos.toNat + min n s.rem := by
      rw [advanceOffset_bufPos, hTR, hrp, hdp]
    have hTbuf : (advanceOffset n T.2).bufBytes = s.bufBytes := by
      rw [← hDbuf]; show be 8 T.2.buf.toNat = _; rw [hTR, hrb]; rfl
    rcases Nat.lt_or_ge n s.rem with hlt | hge
    · have hm0 : m = 0 := by omega
      have hrem : (advanceOffset n T.2).rem = s.rem - n := by
        simp only [State.rem, hTlen, hTpos]
        simp only [State.rem] at hlt
        omega
      refine ⟨by rw [hTlen]; exact h.len, by rw [hTlen, hTpos]; omega,
        by rw [hnew, hrem, hTnxt]; omega, ?_, hrange⟩
      have hu := congrArg (List.drop n) h.bytes
      rw [State.unconsumed, List.drop_take, List.drop_drop, memRead_drop] at hu
      rw [State.unconsumed, hTbuf, hTpos, Nat.min_eq_left (Nat.le_of_lt hlt), hrem, hnew, advanceOffset_key,
        hTkey, hu]
    · exact Consistent.of_empty (u := s.nxt + m / 8) (by rw [hTlen]; exact h.len)
        (by rw [hTlen, hTpos]; omega) hTnxt (by rw [hnew]; omega) hrange
  · obtain ⟨hp, hx, hl, hb⟩ := ht2 h0
    exact Consistent.of_filled (u := R.2.nxt) (r := m % 8) hTkey hl (by omega) hp
      (by rw [← hTkey, ← htk]; exact hb) hx (by rw [hnew]; omega) hrange

end Sys2Proof.Machine
end

