-- ==== Sys2Proof/Laws/Commands.lean ====
section
/-! SUPPORT. What the commands do, said once: the checks, `SEEK`'s repositioning, the loop of `DUMP`. -/

namespace Sys2Proof.Machine

/-! ### Transfers -/

theorem dataEvents_cons {bs : List Byte} (h : bs ≠ []) : dataEvents bs = [.dout bs] := by
  cases bs with
  | nil => exact absurd rfl h
  | cons b bs => rfl

theorem respond_nil (st : Status) (v : Nat) (s : State) :
    respond st v [] s = { s with out := s.out ++ [.resp ⟨st, BitVec.ofNat 64 v⟩] } := rfl

theorem raise_eq (st : Status) (s : State) : raise st s = { s with out := s.out ++ [.resp ⟨st, 0⟩] } := rfl

/-- What happens on the ports does not touch the registers that `INV` speaks of. -/
theorem State.Consistent.congr {s t : State} (h : s.Consistent) (k : SameRegisters s t) : t.Consistent := by
  obtain ⟨-, hk, hc, hh, hb, hl, hp, ho, -, -⟩ := k
  have hrem : s.rem = t.rem := by simp only [State.rem, hl, hp]
  have hnxt : s.nxt = t.nxt := by simp only [State.nxt, hc, hh]
  have hun : s.unconsumed = t.unconsumed := by simp only [State.unconsumed, State.bufBytes, hb, hp, hrem]
  exact ⟨hl ▸ h.len, hp ▸ hl ▸ h.pos, ho ▸ hrem ▸ hnxt ▸ h.aligned, by rw [← hun, h.bytes, hk, ho, hrem],
    ho ▸ h.range⟩

theorem respond_sameRegisters (st : Status) (v : Nat) (data : List Byte) (s : State) :
    SameRegisters s (respond st v data s) := ⟨rfl, rfl, rfl, rfl, rfl, rfl, rfl, rfl, rfl, rfl⟩

theorem sinkWrite_sameRegisters (chunk : List Byte) (s : State) : SameRegisters s (sinkWrite chunk s).2 :=
  ⟨rfl, rfl, rfl, rfl, rfl, rfl, rfl, rfl, rfl, rfl⟩

/-! ### The checks -/

/-- When the size check passes, the number of bytes is 0 or a read of that many ends at a legal position
(R172, R173). -/
theorem checkSize_ok {size : Option Nat} {s : State} {n : Nat} (h : checkSize size s = .ok n) :
    s.ready = true ∧ (n = 0 ∨ s.offset.toNat + n ≤ Config.offsetMax) ∧
      ∃ m : Int, resolveSize size s = .ok m ∧ n = m.toNat := by
  unfold checkSize at h
  split at h
  · rename_i hr
    refine ⟨hr, ?_⟩
    split at h
    · cases h
    · rename_i m hm
      split at h
      · cases h; exact ⟨.inl rfl, m, hm, by omega⟩
      · split at h
        · cases h
        · cases h; exact ⟨.inr (by omega), m, hm, rfl⟩
  · cases h

/-- When the target check passes, the target is a legal position (R193). -/
theorem checkTarget_ok {w : Whence} {a : Int} {s : State} {t : Nat} (h : checkTarget w a s = .ok t) :
    s.ready = true ∧ t ≤ Config.offsetMax ∧ seekTarget w a s = .ok (t : Int) := by
  unfold checkTarget at h
  split at h
  · rename_i hr
    split at h
    · cases h
    · rename_i m hm
      split at h
      · cases h
      · cases h
        exact ⟨hr, by omega, by rw [hm]; congr 1; omega⟩
  · cases h

/-- Every error of the size check is a refusal (R174). -/
theorem checkSize_error {size : Option Nat} {s : State} {e : Status} (h : checkSize size s = .error e) :
    e.isRefusal = true := by
  unfold checkSize resolveSize at h
  split at h <;> (try cases h; rfl)
  split at h
  · rename_i hm
    split at hm <;> (try split at hm) <;> cases hm
    cases h; rfl
  · split at h <;> (try split at h) <;> cases h
    rfl

/-- Every error of the target check is a refusal (R196). -/
theorem checkTarget_error {w : Whence} {a : Int} {s : State} {e : Status} (h : checkTarget w a s = .error e) :
    e.isRefusal = true := by
  unfold checkTarget seekTarget at h
  split at h <;> (try cases h; rfl)
  split at h
  · rename_i hm
    split at hm <;> (try split at hm) <;> cases hm
    cases h; rfl
  · split at h <;> cases h
    rfl

/-! ### What each command can do -/

/-- `READ` refuses, or answers `OK`, 0 and touches nothing, or delivers `n > 0` bytes (R172). -/
theorem readCommand_cases (size : Option Nat) (s : State) :
    (∃ e, e.isRefusal = true ∧ readCommand size s = raise e s) ∨
      (s.ready = true ∧ readCommand size s = respond .ok 0 [] s) ∨
      ∃ n, s.ready = true ∧ 0 < n ∧ s.offset.toNat + n ≤ Config.offsetMax ∧ checkSize size s = .ok n ∧
        readCommand size s = deliver n s := by
  unfold readCommand
  cases h : checkSize size s with
  | error e => exact .inl ⟨e, checkSize_error h, rfl⟩
  | ok n =>
    obtain ⟨hr, hn, -⟩ := checkSize_ok h
    rcases Nat.eq_zero_or_pos n with h0 | h0
    · exact .inr (.inl ⟨hr, if_pos h0⟩)
    · exact .inr (.inr ⟨n, hr, h0, by omega, rfl, if_neg (by omega)⟩)

/-- `SEEK` refuses, or repositions to a legal target (R195). -/
theorem seekCommand_cases (w : Whence) (a : Int) (s : State) :
    (∃ e, e.isRefusal = true ∧ seekCommand w a s = raise e s) ∨
      ∃ t, s.ready = true ∧ t ≤ Config.offsetMax ∧ seekTarget w a s = .ok (t : Int) ∧
        seekCommand w a s = respond .ok 0 [] (setOffset t (reposition t s)) := by
  unfold seekCommand
  cases h : checkTarget w a s with
  | error e => exact .inl ⟨e, checkTarget_error h, rfl⟩
  | ok t =>
    obtain ⟨hr, ht, hs⟩ := checkTarget_ok h
    exact .inr ⟨t, hr, ht, hs, rfl⟩

/-- `DUMP` refuses, or answers `OK`, 0 and touches nothing, or runs its loop on `n > 0` bytes (R213). -/
theorem dumpCommand_cases (size : Option Nat) (s : State) :
    (∃ e, e.isRefusal = true ∧ dumpCommand size s = raise e s) ∨
      (s.ready = true ∧ dumpCommand size s = respond .ok 0 [] s) ∨
      ∃ n, s.ready = true ∧ 0 < n ∧ s.offset.toNat + n ≤ Config.offsetMax ∧ checkSize size s = .ok n ∧
        dumpCommand size s = dumpLoop (chunkCount n) n 0 s := by
  unfold dumpCommand
  cases h : checkSize size s with
  | error e => exact .inl ⟨e, checkSize_error h, rfl⟩
  | ok n =>
    obtain ⟨hr, hn, -⟩ := checkSize_ok h
    rcases Nat.eq_zero_or_pos n with rfl | h0
    · exact .inr (.inl ⟨hr, rfl⟩)
    · exact .inr (.inr ⟨n, hr, h0, by omega, rfl, rfl⟩)

/-- `INIT` refuses too long a seed, or starts a lifetime on what the ports deliver (R115, R116). -/
theorem exec_init_cases {i : Instr} (h : isInit i = true) (s : State) :
    exec i s = .next (raise .invalidArgument s) ∨
      ∃ k m u, exec i s = .next (startLifetime k m u) ∧ SameRegisters s u ∧ u.inbox = s.inbox ∧
        u.sinkIn = s.sinkIn ∧ u.out = s.out := by
  have seed : ∀ len m, initFromSeed len m s = raise .invalidArgument s ∨
      initFromSeed len m s = startLifetime (sha256 (takeSeed len s).1) m (takeSeed len s).2 := by
    intro len m
    unfold initFromSeed
    split
    · exact .inl rfl
    · exact .inr rfl
  cases i <;> simp only [isInit, Bool.false_eq_true] at h
  · exact .inr ⟨_, none, _, rfl, ⟨rfl, rfl, rfl, rfl, rfl, rfl, rfl, rfl, rfl, rfl⟩, rfl, rfl, rfl⟩
  · rename_i len
    rcases seed len none with h | h
    · exact .inl (by rw [exec, execInitSeed, h])
    · exact .inr ⟨_, none, (takeSeed len s).2, by rw [exec, execInitSeed, h],
        ⟨rfl, rfl, rfl, rfl, rfl, rfl, rfl, rfl, rfl, rfl⟩, rfl, rfl, rfl⟩
  · rename_i m
    exact .inr ⟨_, some m, _, rfl, ⟨rfl, rfl, rfl, rfl, rfl, rfl, rfl, rfl, rfl, rfl⟩, rfl, rfl, rfl⟩
  · rename_i len m
    rcases seed len (some m) with h | h
    · exact .inl (by rw [exec, execInitSeedMax, h])
    · exact .inr ⟨_, some m, (takeSeed len s).2, by rw [exec, execInitSeedMax, h],
        ⟨rfl, rfl, rfl, rfl, rfl, rfl, rfl, rfl, rfl, rfl⟩, rfl, rfl, rfl⟩

/-! ### `SEEK` -/

theorem cipherAt_nxt (u : Nat) (s : State) (h : u < 2 ^ 128) : (cipherAt u s).nxt = u := by
  simp only [State.nxt, cipherAt_ctr, cipherAt_half, Config.ctrInit]
  rcases Nat.mod_two_eq_zero_or_one u with h | h <;> simp [h] <;> omega

/-- What `SEEK`'s repositioning leaves alone (R39). -/
theorem reposition_frame (t : Nat) (s : State) :
    SameBut s (reposition t s) ∧ SamePorts s (reposition t s) ∧ (reposition t s).offset = s.offset := by
  unfold reposition
  dsimp only
  split
  · exact ⟨⟨rfl, rfl, rfl, rfl, rfl, rfl, rfl⟩, ⟨rfl, rfl, rfl, rfl, rfl, rfl⟩, rfl⟩
  · exact ⟨⟨rfl, rfl, rfl, rfl, rfl, rfl, rfl⟩, ⟨rfl, rfl, rfl, rfl, rfl, rfl⟩, rfl⟩

/-- On a unit boundary: the context on the unit, the buffer empty (R199 (a)). -/
theorem reposition_aligned {t : Nat} {s : State} (h : t % 8 = 0) :
    reposition t s = { s with
      ctr := BitVec.ofNat 128 (Config.ctrInit + t / 8 / 2), half := t / 8 % 2 == 1, buf := 0, bufLen := 0,
      bufPos := 0 } := by
  simp [reposition, h, cipherAt, clearBuffer, seekBuffer]

/-- Inside a unit: that unit in the buffer, the cursor on the target, the context on the next unit (R195). -/
theorem reposition_inside {t : Nat} {s : State} (h : t % 8 ≠ 0) (ht : t ≤ Config.offsetMax) :
    (reposition t s).buf = streamUnit s.key (t / 8) ∧ (reposition t s).bufLen = 8 ∧
      (reposition t s).bufPos.toNat = t % 8 ∧ (reposition t s).nxt = t / 8 + 1 := by
  simp only [Config.offsetMax] at ht
  have hn : (cipherAt (t / 8) (clearBuffer s)).nxt = t / 8 := cipherAt_nxt _ _ (by omega)
  have hc := ctr_le_nxt (cipherAt (t / 8) (clearBuffer s))
  have he : reposition t s = seekBuffer (t % 8) (fillBuffer (cipherAt (t / 8) (clearBuffer s))) := by
    simp [reposition, h]
  rw [he]
  refine ⟨?_, rfl, ?_, ?_⟩
  · rw [seekBuffer_buf, fillBuffer_buf, currentUnit_eq, hn, cipherAt_key, clearBuffer_key]
  · rw [seekBuffer_bufPos, BitVec.toNat_ofNat]; omega
  · exact (fillBuffer_nxt _ (by omega)).trans (by rw [hn])

/-- `SEEK` establishes `INV` whatever the state before (R197). -/
theorem reposition_consistent {t : Nat} (s : State) (ht : t ≤ Config.offsetMax) :
    (setOffset t (reposition t s)).Consistent := by
  have ho : (setOffset t (reposition t s)).offset.toNat = t := by
    simp only [Config.offsetMax] at ht
    rw [setOffset_offset, BitVec.toNat_ofNat]; exact Nat.mod_eq_of_lt (by omega)
  by_cases h : t % 8 = 0
  · have hn : (setOffset t (reposition t s)).nxt = t / 8 := by
      rw [reposition_aligned h]
      exact cipherAt_nxt (t / 8) s (by simp only [Config.offsetMax] at ht; omega)
    refine Consistent.of_empty (u := t / 8) (.inl ?_) ?_ hn (by rw [ho]; omega) (by rw [ho]; exact ht)
    · rw [setOffset_bufLen, reposition_aligned h]
    · rw [setOffset_bufPos, setOffset_bufLen, reposition_aligned h]
  · obtain ⟨hb, hl, hp, hn⟩ := reposition_inside (s := s) h ht
    obtain ⟨⟨-, hk, -⟩, -⟩ := reposition_frame t s
    refine Consistent.of_filled (u := t / 8) (r := t % 8) hk.symm hl (by omega) hp ?_ hn (by rw [ho]; omega)
      (by rw [ho]; exact ht)
    show be 8 (reposition t s).buf.toNat = _
    rw [hb, be_streamUnit]

/-! ### `READ` and `INIT` -/

/-- Delivering `n > 0` bytes from a consistent state (R170). -/
theorem deliver_spec {s : State} (h : s.Consistent) {n : Nat} (h0 : 0 < n)
    (hn : s.offset.toNat + n ≤ Config.offsetMax) :
    (deliver n s).out =
        s.out ++ [.dout (memRead s.key s.offset.toNat n), .resp ⟨.ok, BitVec.ofNat 64 n⟩] ∧
      (deliver n s).offset.toNat = s.offset.toNat + n ∧ (deliver n s).Consistent ∧ SameBut s (deliver n s) ∧
      (deliver n s).sinkIn = s.sinkIn ∧ (deliver n s).draws = s.draws := by
  obtain ⟨hb, ho, hc⟩ := readCore_spec h n hn
  obtain ⟨hs, hp⟩ := readCore_frame n s
  have hne : (readCore n s).1 ≠ [] := by
    rw [hb]; intro hx; have := congrArg List.length hx; simp at this; omega
  refine ⟨?_, ho, hc.congr (respond_sameRegisters ..), hs.trans ⟨rfl, rfl, rfl, rfl, rfl, rfl, rfl⟩,
    hp.sinkIn.symm, hp.draws.symm⟩
  rw [deliver, respond_out, dataEvents_cons hne, hb, ← hp.out]; rfl

/-- A new lifetime satisfies `INV` (R32, R38). -/
theorem startLifetime_consistent (k : Key) (m : Option Nat) (s : State) : (startLifetime k m s).Consistent :=
  Consistent.of_empty (u := 0) (.inl rfl) rfl (by simp [State.nxt, Config.ctrInit]) rfl (Nat.zero_le _)

/-! ### `DUMP` -/

/-- The transfers of the chunks `j, j+1, …` (`m` of them) of a `DUMP` of `n` bytes from position `a`, all
accepted. -/
def acceptedChunks (key : Key) (a n j m : Nat) : List PortEvent :=
  (List.range m).map fun i => .sinkWrite (dumpChunkBytes key a n (j + i)) .ok

theorem acceptedChunks_succ (key : Key) (a n j m : Nat) :
    acceptedChunks key a n j (m + 1) =
      .sinkWrite (dumpChunkBytes key a n j) .ok :: acceptedChunks key a n (j + 1) m := by
  simp [acceptedChunks, List.range_succ_eq_map, Function.comp_def, Nat.add_assoc, Nat.add_comm 1]

/-- The loop ran to its end: every chunk was accepted (R213). `m` chunks were to go from chunk `j` on. -/
structure DumpDone (a n j m : Nat) (s t : State) : Prop where
  out : t.out = s.out ++ acceptedChunks s.key a n j m ++ [.resp ⟨.ok, BitVec.ofNat 64 n⟩]
  offset : t.offset.toNat = a + n
  sink : ∀ later, s.sinkIn = List.replicate m .ok ++ later → t.sinkIn = later ∧ t.draws = s.draws
  noFail : ∀ k later, k < m → s.sinkIn ≠ List.replicate k .ok ++ .fail :: later

/-- The loop stopped at the chunk `k` places after chunk `j`, whose answer was `fail` (R215). -/
structure DumpFailed (a n j k : Nat) (s t : State) : Prop where
  out : t.out = s.out ++ acceptedChunks s.key a n j k ++
    [.sinkWrite (dumpChunkBytes s.key a n (j + k)) .fail,
      .resp ⟨.ioFailure, BitVec.ofNat 64 (Config.dumpChunk * (j + k))⟩]
  offset : t.offset.toNat = a + min n (Config.dumpChunk * (j + k + 1))
  noOk : ∀ k' later, s.sinkIn = List.replicate k' .ok ++ later → k' ≤ k
  sink : ∀ k' later, s.sinkIn = List.replicate k' .ok ++ .fail :: later →
    k' = k ∧ t.sinkIn = later ∧ t.draws = s.draws

/-- What the loop of `DUMP` does from chunk `j` on, with `m` chunks to go (R213, R215). -/
theorem dumpLoop_cases {a n : Nat} (ha : a + n ≤ Config.offsetMax) :
    ∀ (m j : Nat) (s : State), s.Consistent → j + m = chunkCount n →
      s.offset.toNat = a + min n (Config.dumpChunk * j) →
      (dumpLoop m n (min n (Config.dumpChunk * j)) s).Consistent ∧
        SameBut s (dumpLoop m n (min n (Config.dumpChunk * j)) s) ∧
        (DumpDone a n j m s (dumpLoop m n (min n (Config.dumpChunk * j)) s) ∨
          ∃ k, k < m ∧ DumpFailed a n j k s (dumpLoop m n (min n (Config.dumpChunk * j)) s)) := by
  intro m
  induction m with
  | zero =>
    intro j s hs hj ho
    have hn : min n (Config.dumpChunk * j) = n := by
      simp only [chunkCount, Config.dumpChunk] at hj ⊢; omega
    rw [hn] at ho ⊢
    refine ⟨hs.congr (respond_sameRegisters ..), ⟨rfl, rfl, rfl, rfl, rfl, rfl, rfl⟩, .inl ⟨?_, ho, ?_, ?_⟩⟩
    · simp [dumpLoop, acceptedChunks, dataEvents]
    · intro later h; exact ⟨by simpa [dumpLoop] using h, rfl⟩
    · intro k later h; omega
  | succ m ih =>
    intro j s hs hj ho
    have hlt : Config.dumpChunk * j < n := by
      simp only [chunkCount, Config.dumpChunk] at hj ⊢; omega
    have hw : min n (Config.dumpChunk * j) = Config.dumpChunk * j := Nat.min_eq_right (Nat.le_of_lt hlt)
    have hnext : Config.dumpChunk * j + min Config.dumpChunk (n - Config.dumpChunk * j) =
        min n (Config.dumpChunk * (j + 1)) := by
      simp only [Config.dumpChunk] at hlt ⊢; omega
    rw [hw] at ho ⊢
    generalize hc : min Config.dumpChunk (n - Config.dumpChunk * j) = c at hnext
    obtain ⟨hb, hoff, hcons⟩ := readCore_spec hs c (by rw [ho]; simp only [Config.dumpChunk] at *; omega)
    obtain ⟨hsame, hports⟩ := readCore_frame c s
    have hchunk : (readCore c s).1 = dumpChunkBytes s.key a n j := by rw [hb, ho, dumpChunkBytes, hc]
    have hoff' : (readCore c s).2.offset.toNat = a + min n (Config.dumpChunk * (j + 1)) := by
      rw [hoff, ho]; omega
    have hdl : dumpLoop (m + 1) n (Config.dumpChunk * j) s =
        match sinkAnswer (readCore c s).2 with
        | .fail => respond .ioFailure (Config.dumpChunk * j) [] (sinkWrite (readCore c s).1 (readCore c s).2).2
        | .ok => dumpLoop m n (Config.dumpChunk * j + c) (sinkWrite (readCore c s).1 (readCore c s).2).2 := by
      simp only [dumpLoop, hc]; rfl
    generalize hx : readCore c s = x at *
    have hrs : SameBut s (sinkWrite x.1 x.2).2 := hsame.trans ⟨rfl, rfl, rfl, rfl, rfl, rfl, rfl⟩
    have hsink : (sinkWrite x.1 x.2).2.sinkIn = s.sinkIn.tail := by rw [sinkWrite_sinkIn, ← hports.sinkIn]
    have hdraws : (sinkWrite x.1 x.2).2.draws = s.draws + (1 - s.sinkIn.length) := by
      rw [sinkWrite_draws, ← hports.sinkIn, ← hports.draws]
    have hans : ∀ b l, s.sinkIn = b :: l → sinkAnswer x.2 = b := by
      intro b l h; rw [sinkAnswer, ← hports.sinkIn, h]
    have hcs : (sinkWrite x.1 x.2).2.Consistent := hcons.congr (sinkWrite_sameRegisters ..)
    cases hA : sinkAnswer x.2 with
    | fail =>
      rw [hA] at hdl
      have hok : ∀ k' later, s.sinkIn = List.replicate k' .ok ++ later → k' = 0 := by
        intro k' later h
        cases k' with
        | zero => rfl
        | succ k' => rw [List.replicate_succ, List.cons_append] at h; simp [hans _ _ h] at hA
      rw [hdl]
      refine ⟨hcs.congr (respond_sameRegisters ..), hrs.trans ⟨rfl, rfl, rfl, rfl, rfl, rfl, rfl⟩,
        .inr ⟨0, Nat.succ_pos m, ⟨?_, ?_, ?_, ?_⟩⟩⟩
      · simp [acceptedChunks, dataEvents, hchunk, hA, ← hports.out]
      · simpa using hoff'
      · intro k' later h; exact Nat.le_of_eq (hok k' later h)
      · intro k' later h
        have h0 := hok k' _ h
        subst h0
        rw [List.replicate_zero, List.nil_append] at h
        exact ⟨rfl, by rw [respond_sinkIn, hsink, h, List.tail_cons], by
          rw [respond_draws, hdraws, h]; simp⟩
    | ok =>
      rw [hA] at hdl
      rw [hdl, hnext]
      obtain ⟨h1, h2, h3⟩ := ih (j + 1) (sinkWrite x.1 x.2).2 hcs (by omega) hoff'
      generalize dumpLoop m n (min n (Config.dumpChunk * (j + 1))) (sinkWrite x.1 x.2).2 = t at h1 h2 h3 ⊢
      have hout : (sinkWrite x.1 x.2).2.out = s.out ++ [.sinkWrite (dumpChunkBytes s.key a n j) .ok] := by
        rw [sinkWrite_out, hchunk, hA, hports.out]
      refine ⟨h1, hrs.trans h2, ?_⟩
      rcases h3 with h3 | ⟨k, hk, h3⟩
      · refine .inl ⟨?_, h3.offset, ?_, ?_⟩
        · rw [h3.out, hout, acceptedChunks_succ, ← hrs.key]; simp
        · intro later h
          rw [List.replicate_succ, List.cons_append] at h
          obtain ⟨e1, e2⟩ := h3.sink later (by rw [hsink, h, List.tail_cons])
          exact ⟨e1, by rw [e2, hdraws, h]; simp⟩
        · intro k later hk h
          cases k with
          | zero => rw [hans _ _ h] at hA; cases hA
          | succ k =>
            exact h3.noFail k later (by omega)
              (by rw [hsink, h, List.replicate_succ, List.cons_append, List.tail_cons])
      · refine .inr ⟨k + 1, by omega, ⟨?_, ?_, ?_, ?_⟩⟩
        · rw [h3.out, hout, acceptedChunks_succ, ← hrs.key, show j + 1 + k = j + (k + 1) by omega]; simp
        · rw [h3.offset, show j + 1 + k + 1 = j + (k + 1) + 1 by omega]
        · intro k' later h
          cases k' with
          | zero => omega
          | succ k' =>
            have := h3.noOk k' later (by rw [hsink, h, List.replicate_succ, List.cons_append, List.tail_cons])
            omega
        · intro k' later h
          cases k' with
          | zero => rw [hans _ _ h] at hA; cases hA
          | succ k' =>
            obtain ⟨e1, e2, e3⟩ := h3.sink k' later
              (by rw [hsink, h, List.replicate_succ, List.cons_append, List.tail_cons])
            rw [List.replicate_succ, List.cons_append] at h
            exact ⟨by omega, e2, by rw [e3, hdraws, h]; simp⟩

end Sys2Proof.Machine
end

