-- ==== Sys2Proof/Laws/Encoding.lean ====
section
/-! SUPPORT. The fields of a command word (spec rule R81). -/

namespace Sys2Proof

@[simp] theorem fieldOp_commandWord (op mod : Byte) (a b : Word64) : fieldOp (commandWord op mod a b) = op := by
  ext i hi
  simp only [fieldOp, commandWord, BitVec.getElem_extractLsb', BitVec.getLsbD_append]
  rw [if_neg (by omega), if_neg (by omega), if_neg (by omega)]
  rw [show 136 + i - 64 - 64 - 8 = i by omega, BitVec.getLsbD_eq_getElem]

@[simp] theorem fieldMod_commandWord (op mod : Byte) (a b : Word64) :
    fieldMod (commandWord op mod a b) = mod := by
  ext i hi
  simp only [fieldMod, commandWord, BitVec.getElem_extractLsb', BitVec.getLsbD_append]
  rw [if_neg (by omega), if_neg (by omega), if_pos (by omega)]
  rw [show 128 + i - 64 - 64 = i by omega, BitVec.getLsbD_eq_getElem]

@[simp] theorem fieldA_commandWord (op mod : Byte) (a b : Word64) : fieldA (commandWord op mod a b) = a := by
  ext i hi
  simp only [fieldA, commandWord, BitVec.getElem_extractLsb', BitVec.getLsbD_append]
  rw [if_neg (by omega), if_pos (by omega)]
  rw [show 64 + i - 64 = i by omega, BitVec.getLsbD_eq_getElem]

@[simp] theorem fieldB_commandWord (op mod : Byte) (a b : Word64) : fieldB (commandWord op mod a b) = b := by
  ext i hi
  simp only [fieldB, commandWord, BitVec.getElem_extractLsb', BitVec.getLsbD_append]
  rw [if_pos (by omega)]
  rw [show 0 + i = i by omega, BitVec.getLsbD_eq_getElem]

/-- A word is its four fields (R81). -/
theorem commandWord_fields (w : CommandWord) : commandWord (fieldOp w) (fieldMod w) (fieldA w) (fieldB w) = w := by
  refine BitVec.eq_of_getLsbD_eq fun i hi => ?_
  simp only [commandWord, BitVec.getLsbD_append]
  split
  · simp [fieldB, *]
  · split
    · simp only [fieldA, BitVec.getLsbD_extractLsb', show 64 + (i - 64) = i by omega]
      simp; omega
    · split
      · simp only [fieldMod, BitVec.getLsbD_extractLsb', show 128 + (i - 64 - 64) = i by omega]
        simp; omega
      · simp only [fieldOp, BitVec.getLsbD_extractLsb', show 136 + (i - 64 - 64 - 8) = i by omega]
        simp; omega

/-- Decoding looks at the four fields only (R83). -/
theorem decode_commandWord (op mod : Byte) (a b : Word64) :
    decode (commandWord op mod a b) = decodeFields op mod a b := by
  simp [decode]

end Sys2Proof
end

