-- ==== Sys2Proof/Laws/HostSide.lean ====
section
/-! SUPPORT. What a host's call issues (spec rules R91, R92). -/

namespace Sys2Proof.Machine

/-- Every command that a call issues has a word (R91; log entry 20). -/
theorem issue_wellFormed {c : HostCall} {is : Issue} (h : c.issue = some is) {i : Instr} (hi : i ∈ is.commands) :
    i.wellFormed = true :=
  List.all_eq_true.1 (Option.filter_eq_some_iff.1 h).2 i hi

/-- A call whose expansion has words issues that expansion (R92). -/
theorem issue_of_expansion {c : HostCall} {is : Issue} (h : c.expansion = some is) (hw : is.hasWords = true) :
    c.issue = some is := by
  rw [HostCall.issue, h, Option.filter_some, if_pos hw]

/-- `READAT t, n` with operands in range issues `SEEK t, SET` and `READ n` (R92). -/
theorem issue_readAt {t : Int} {n : Nat} (ht : fitsSigned t = true) (hn : fitsUnsigned n = true) :
    (HostCall.readAt t n).issue = some ⟨[.seekSet t, .read n], []⟩ :=
  issue_of_expansion rfl (by simp [Issue.hasWords, Instr.wellFormed, ht, hn])

end Sys2Proof.Machine
end

