-- ==== Sys2Proof/Laws/PerInstr.lean ====
section
/-! SUPPORT. Per command: its word stands in its row of the opcode table, whatever its operands (spec rules
R83, R87). -/

namespace Sys2Proof.Laws.EncodesInRow

/-- The word of the command selects the command's row. -/
def Statement (i : Instr) : Prop :=
  (opcodeRow i).selects (encode i) = true

/-- A word selects a row when it does so field by field; `x` and `y` say which operands are fixed. -/
theorem selects_fields {r : OpcodeRow} {op mod : Byte} {a b : Word64} (x y : Bool)
    (hm : r.mask = commandWord 0xff#8 0xff#8 (if x then 0xffffffffffffffff#64 else 0#64)
      (if y then 0xffffffffffffffff#64 else 0#64))
    (hp : r.pattern = commandWord op mod 0#64 0#64) (ha : x = true → a = 0#64) (hb : y = true → b = 0#64) :
    r.selects (commandWord op mod a b) = true := by
  have ho : ∀ v : Byte, v &&& 0xff#8 = v := fun v => BitVec.and_allOnes (x := v)
  have hx : a &&& (if x then 0xffffffffffffffff#64 else 0#64) = 0#64 := by
    cases x
    · exact BitVec.and_zero
    · rw [ha rfl, BitVec.zero_and]
  have hy : b &&& (if y then 0xffffffffffffffff#64 else 0#64) = 0#64 := by
    cases y
    · exact BitVec.and_zero
    · rw [hb rfl, BitVec.zero_and]
  unfold commandWord at hm hp
  rw [OpcodeRow.selects, beq_iff_eq, hm, hp, commandWord, BitVec.and_append, BitVec.and_append,
    BitVec.and_append, ho, ho, hx, hy]

theorem initRnd : Statement .initRnd :=
  selects_fields true true rfl rfl (fun _ => rfl) (fun _ => rfl)
theorem initSeed (seedLen : Nat) : Statement (.initSeed seedLen) :=
  selects_fields false true rfl rfl nofun (fun _ => rfl)
theorem initRndMax (maxSize : Nat) : Statement (.initRndMax maxSize) :=
  selects_fields true false rfl rfl (fun _ => rfl) nofun
theorem initSeedMax (seedLen maxSize : Nat) : Statement (.initSeedMax seedLen maxSize) :=
  selects_fields false false rfl rfl nofun nofun
theorem readAll : Statement .readAll :=
  selects_fields true true rfl rfl (fun _ => rfl) (fun _ => rfl)
theorem read (size : Nat) : Statement (.read size) :=
  selects_fields false true rfl rfl nofun (fun _ => rfl)
theorem seekSet (target : Int) : Statement (.seekSet target) :=
  selects_fields false true rfl rfl nofun (fun _ => rfl)
theorem seekCur (target : Int) : Statement (.seekCur target) :=
  selects_fields false true rfl rfl nofun (fun _ => rfl)
theorem seekEnd (target : Int) : Statement (.seekEnd target) :=
  selects_fields false true rfl rfl nofun (fun _ => rfl)
theorem tell : Statement .tell :=
  selects_fields true true rfl rfl (fun _ => rfl) (fun _ => rfl)
theorem dumpAll : Statement .dumpAll :=
  selects_fields true true rfl rfl (fun _ => rfl) (fun _ => rfl)
theorem dump (size : Nat) : Statement (.dump size) :=
  selects_fields false true rfl rfl nofun (fun _ => rfl)

end Sys2Proof.Laws.EncodesInRow
end

