-- ==== Sys2Proof/Laws/Step.lean ====
section
/-! SUPPORT. What a command and a step can be, said once: the forms of `exec`, the forms of `step`, and the
checks under the conditions that the spec gives for them. -/

namespace Sys2Proof.Machine

/-! ### The checks, from the conditions -/

/-- A resolved size of `n > 0` bytes that ends at a legal position passes the check (R171, R172). -/
theorem checkSize_of {s : State} {size : Option Nat} {n : Nat} (hr : s.ready = true)
    (hn : resolveSize size s = .ok (n : Int)) (hm : s.offset.toNat + n ≤ Config.offsetMax) :
    checkSize size s = .ok n := by
  unfold checkSize
  rw [if_pos hr, hn]
  by_cases h0 : n = 0
  · subst h0; rfl
  · simp only
    rw [if_neg (by omega), if_neg (by omega)]; simp

/-- A target that is a legal position passes the check (R193). -/
theorem checkTarget_of {s : State} {w : Whence} {a : Int} {t : Nat} (hr : s.ready = true)
    (hs : seekTarget w a s = .ok (t : Int)) (ht : t ≤ Config.offsetMax) : checkTarget w a s = .ok t := by
  unfold checkTarget
  rw [if_pos hr, hs]
  simp only
  rw [if_neg (by omega)]; simp

/-- What the size of a `READ` or `DUMP` resolves to, in the words of R171. -/
theorem resolveSize_some (a : Nat) (s : State) :
    resolveSize (some a) s =
      .ok (if s.maxValid then min (a : Int) (s.maxSize.toNat - s.offset.toNat) else a) := rfl

theorem resolveSize_none {s : State} (h : s.maxValid = true) :
    resolveSize none s = .ok ((s.maxSize.toNat : Int) - s.offset.toNat) := by
  simp [resolveSize, h, bytesToBound]

/-! ### The forms of a command -/

/-- Every command is an `INIT`, a `READ`, a `DUMP`, a `SEEK` or `TELL` (R83). -/
theorem exec_forms (i : Instr) (s : State) :
    isInit i = true ∨ isInit i = false ∧
      ((∃ a, exec i s = .next (readCommand a s)) ∨ (∃ a, exec i s = .next (dumpCommand a s)) ∨
        (∃ w a, exec i s = .next (seekCommand w a s)) ∨ i = .tell) := by
  cases i with
  | initRnd | initSeed | initRndMax | initSeedMax => exact .inl rfl
  | readAll => exact .inr ⟨rfl, .inl ⟨none, rfl⟩⟩
  | read a => exact .inr ⟨rfl, .inl ⟨some a, rfl⟩⟩
  | seekSet a => exact .inr ⟨rfl, .inr (.inr (.inl ⟨.set, a, rfl⟩))⟩
  | seekCur a => exact .inr ⟨rfl, .inr (.inr (.inl ⟨.cur, a, rfl⟩))⟩
  | seekEnd a => exact .inr ⟨rfl, .inr (.inr (.inl ⟨.fromEnd, a, rfl⟩))⟩
  | tell => exact .inr ⟨rfl, .inr (.inr (.inr rfl))⟩
  | dumpAll => exact .inr ⟨rfl, .inr (.inl ⟨none, rfl⟩)⟩
  | dump a => exact .inr ⟨rfl, .inr (.inl ⟨some a, rfl⟩)⟩

/-- Every command has a next state. -/
theorem exec_next (i : Instr) (s : State) : ∃ t, exec i s = .next t := by
  cases i <;> exact ⟨_, rfl⟩

/-- Every word has a next state. -/
theorem runWord_next (w : CommandWord) (s : State) : ∃ t, runWord w s = .next t := by
  unfold runWord
  split
  · exact ⟨_, rfl⟩
  · exact exec_next _ _

/-- A word runs the command it decodes to. -/
theorem runWord_of_decode {w : CommandWord} {i : Instr} (h : decode w = .ok i) (s : State) :
    runWord w s = exec i s := by
  rw [runWord, h]

/-- A word that does not decode is refused (R273). -/
theorem runWord_of_reject {w : CommandWord} {e : Reject} (h : decode w = .error e) (s : State) :
    runWord w s = .next (raise .reservedCommand s) := by
  rw [runWord, h]

/-! ### The forms of a step -/

theorem step_idle {s : State} (h : s.inbox = []) : step s = .next s := by
  rw [step, h]

theorem step_command {s : State} {w : CommandWord} {rest : List HostEvent} (h : s.inbox = .command w :: rest) :
    step s = runWord w { s with inbox := rest } := by
  rw [step, h]

theorem step_reset {s : State} {rest : List HostEvent} (h : s.inbox = .reset :: rest) :
    step s = .next (assertReset { s with inbox := rest }) := by
  rw [step, h]

theorem step_cut {s u : State} {w : CommandWord} {k : Nat} {rest : List HostEvent}
    (h : s.inbox = .commandCutByReset w k :: rest) (hu : runWord w { s with inbox := rest } = .next u) :
    step s = .next (abandon k { s with inbox := rest } u) := by
  rw [step, h]
  simp only [runWordCut, hu]

/-! ### Frames and `INV` -/

/-- A response leaves `INV` as it is. -/
theorem inv_respond {s : State} (h : s.Inv) (st : Status) (v : Nat) (d : List Byte) : (respond st v d s).Inv :=
  fun hr => (h hr).congr (respond_sameRegisters ..)

/-- What the host does next is no part of `INV`. -/
theorem inv_inbox {s : State} (h : s.Inv) (l : List HostEvent) : ({ s with inbox := l } : State).Inv :=
  fun hr => (h hr).congr ⟨rfl, rfl, rfl, rfl, rfl, rfl, rfl, rfl, rfl, rfl⟩

theorem respond_sameBut (st : Status) (v : Nat) (d : List Byte) (s : State) : SameBut s (respond st v d s) :=
  ⟨rfl, rfl, rfl, rfl, rfl, rfl, rfl⟩

theorem sinkWrite_sameBut (chunk : List Byte) (s : State) : SameBut s (sinkWrite chunk s).2 :=
  ⟨rfl, rfl, rfl, rfl, rfl, rfl, rfl⟩

/-- The loop of `DUMP` in any state leaves alone what `DUMP` does not write (R39). -/
theorem dumpLoop_frame (m n written : Nat) (s : State) : SameBut s (dumpLoop m n written s) := by
  induction m generalizing written s with
  | zero => exact respond_sameBut ..
  | succ m ih =>
    have h1 := (readCore_frame (min Config.dumpChunk (n - written)) s).1
    rw [dumpLoop]
    generalize readCore (min Config.dumpChunk (n - written)) s = x at h1 ⊢
    have h2 := h1.trans (sinkWrite_sameBut x.1 x.2)
    generalize sinkWrite x.1 x.2 = y at h2 ⊢
    split
    · exact h2.trans (respond_sameBut ..)
    · exact h2.trans (ih ..)

theorem deliver_frame (n : Nat) (s : State) : SameBut s (deliver n s) :=
  (readCore_frame n s).1.trans (respond_sameBut ..)

/-- The loop of `DUMP` starts with nothing written. -/
theorem dumpLoop_start (n : Nat) (s : State) :
    dumpLoop (chunkCount n) n 0 s = dumpLoop (chunkCount n) n (min n (Config.dumpChunk * 0)) s := by
  rw [Nat.mul_zero, Nat.min_zero]

/-! ### Commands whose size resolves -/

/-- A `READ` of either form with resolved size `n > 0` that is not refused delivers `n` bytes (R171, R172). -/
theorem exec_read_of {s : State} {i : Instr} {n : Nat} (hr : s.ready = true)
    (h : (∃ a : Nat, i = .read a ∧
        (n : Int) = if s.maxValid then min (a : Int) (s.maxSize.toNat - s.offset.toNat) else a) ∨
      (i = .readAll ∧ s.maxValid = true ∧ (n : Int) = s.maxSize.toNat - s.offset.toNat))
    (h0 : 0 < n) (hm : s.offset.toNat + n ≤ Config.offsetMax) : exec i s = .next (deliver n s) := by
  obtain ⟨a, he, hs⟩ : ∃ a, exec i s = .next (readCommand a s) ∧ resolveSize a s = .ok (n : Int) := by
    rcases h with ⟨a, rfl, h⟩ | ⟨rfl, hv, h⟩
    · exact ⟨some a, rfl, by rw [resolveSize_some, h]⟩
    · exact ⟨none, rfl, by rw [resolveSize_none hv, h]⟩
  rw [he, readCommand, checkSize_of hr hs hm]
  simp only
  rw [if_neg (by omega)]

/-- A `DUMP` of either form with resolved size `n` that is not refused runs its loop on `n` bytes (R171, R213). -/
theorem exec_dump_of {s : State} {i : Instr} {n : Nat} (hr : s.ready = true)
    (h : (∃ a : Nat, i = .dump a ∧
        (n : Int) = if s.maxValid then min (a : Int) (s.maxSize.toNat - s.offset.toNat) else a) ∨
      (i = .dumpAll ∧ s.maxValid = true ∧ (n : Int) = s.maxSize.toNat - s.offset.toNat))
    (hm : s.offset.toNat + n ≤ Config.offsetMax) :
    exec i s = .next (dumpLoop (chunkCount n) n (min n (Config.dumpChunk * 0)) s) := by
  obtain ⟨a, he, hs⟩ : ∃ a, exec i s = .next (dumpCommand a s) ∧ resolveSize a s = .ok (n : Int) := by
    rcases h with ⟨a, rfl, h⟩ | ⟨rfl, hv, h⟩
    · exact ⟨some a, rfl, by rw [resolveSize_some, h]⟩
    · exact ⟨none, rfl, by rw [resolveSize_none hv, h]⟩
  rw [he, dumpCommand, checkSize_of hr hs hm, ← dumpLoop_start]

/-- A `SEEK` of any `whence` whose target `t` is a legal position repositions to it (R191, R195). -/
theorem exec_seek_of {s : State} {i : Instr} {t : Nat} (hr : s.ready = true)
    (h : i = .seekSet t ∨ (∃ a : Int, i = .seekCur a ∧ (t : Int) = s.offset.toNat + a) ∨
      (∃ a : Int, i = .seekEnd a ∧ s.maxValid = true ∧ (t : Int) = s.maxSize.toNat - a))
    (ht : t ≤ Config.offsetMax) : exec i s = .next (respond .ok 0 [] (setOffset t (reposition t s))) := by
  obtain ⟨w, a, he, hs⟩ : ∃ w a, exec i s = .next (seekCommand w a s) ∧ seekTarget w a s = .ok (t : Int) := by
    rcases h with rfl | ⟨a, rfl, h⟩ | ⟨a, rfl, hv, h⟩
    · exact ⟨.set, t, rfl, rfl⟩
    · exact ⟨.cur, a, rfl, by rw [seekTarget, h]⟩
    · exact ⟨.fromEnd, a, rfl, by rw [seekTarget, if_pos hv, h]⟩
  rw [he, seekCommand, checkTarget_of hr hs ht]

/-- The first `m` chunks of a `DUMP` of `n` bytes, put together (R213). -/
theorem dumpChunks_flatten (key : Key) (a n m : Nat) :
    ((List.range m).map (dumpChunkBytes key a n)).flatten = memRead key a (min n (Config.dumpChunk * m)) := by
  induction m with
  | zero => simp
  | succ m ih =>
    rw [List.range_succ, List.map_append, List.flatten_append, ih]
    simp only [List.map_cons, List.map_nil, List.flatten_cons, List.flatten_nil, List.append_nil,
      dumpChunkBytes, Config.dumpChunk]
    rcases Nat.le_total n (65536 * m) with h | h
    · rw [Nat.sub_eq_zero_of_le h, Nat.min_zero, memRead_zero, List.append_nil]; congr 1; omega
    · rw [Nat.min_eq_right h, ← memRead_add]; congr 1; omega

/-! ### Every command answers once -/

/-- The command answered after data transfers, and not by a refusal. -/
structure Answered (s t : State) : Prop where
  answer : ∃ data r, t.out = s.out ++ data ++ [.resp r] ∧ (∀ e ∈ data, e.isResp = false) ∧
    r.status.isRefusal = false

/-- An answer without data. -/
theorem answered_nil {s t : State} (st : Status) (v : Nat) (h : t.out = s.out) (hst : st.isRefusal = false) :
    Answered s (respond st v [] t) :=
  ⟨[], ⟨st, BitVec.ofNat 64 v⟩, by rw [respond_nil, List.append_nil, ← h], by simp, hst⟩

theorem dumpLoop_answered (m n written : Nat) (s : State) : Answered s (dumpLoop m n written s) := by
  induction m generalizing written s with
  | zero => exact answered_nil _ _ rfl rfl
  | succ m ih =>
    have hp := (readCore_frame (min Config.dumpChunk (n - written)) s).2.out
    rw [dumpLoop]
    generalize readCore (min Config.dumpChunk (n - written)) s = x at hp ⊢
    have ho : (sinkWrite x.1 x.2).2.out = s.out ++ [.sinkWrite x.1 (sinkAnswer x.2)] := by
      rw [sinkWrite_out, hp]
    generalize sinkWrite x.1 x.2 = y at ho ⊢
    split
    · exact ⟨[.sinkWrite x.1 (sinkAnswer x.2)], ⟨.ioFailure, BitVec.ofNat 64 written⟩,
        by rw [respond_nil, ho], by simp [PortEvent.isResp], rfl⟩
    · obtain ⟨d, r, h1, h2, h3⟩ := ih (written + min Config.dumpChunk (n - written)) y.2
      refine ⟨.sinkWrite x.1 (sinkAnswer x.2) :: d, r, by rw [h1, ho]; simp, ?_, h3⟩
      intro e he
      rcases List.mem_cons.1 he with rfl | he
      · rfl
      · exact h2 e he

/-- A command is refused and changes nothing, or answers after its data (R88, R276). -/
theorem exec_answer {i : Instr} {s t : State} (he : exec i s = .next t) :
    (∃ st, st.isRefusal = true ∧ (isInit i = true → st = .invalidArgument) ∧ t = raise st s) ∨
      Answered s t := by
  rcases exec_forms i s with hi | ⟨hi, ⟨a, ha⟩ | ⟨a, ha⟩ | ⟨w, a, ha⟩ | rfl⟩
  · rcases exec_init_cases hi s with h1 | ⟨k, m, u, h1, -, -, -, h5⟩ <;> rw [h1] at he <;> cases he
    · exact .inl ⟨_, rfl, fun _ => rfl, rfl⟩
    · exact .inr ⟨[], ⟨.ok, 0⟩, by rw [← h5]; simp [startLifetime, respond, dataEvents, emit], by simp, rfl⟩
  · rw [ha] at he; cases he
    rcases readCommand_cases a s with ⟨e, h0, h1⟩ | ⟨-, h1⟩ | ⟨n, -, -, -, -, h1⟩ <;> rw [h1]
    · exact .inl ⟨_, h0, by simp [hi], rfl⟩
    · exact .inr (answered_nil _ _ rfl rfl)
    · refine .inr ⟨dataEvents (readCore n s).1, ⟨.ok, BitVec.ofNat 64 n⟩, ?_, ?_, rfl⟩
      · simp [deliver, respond, emit, ← (readCore_frame n s).2.out]
      · intro e he
        cases hx : (readCore n s).1 <;> simp [hx, dataEvents] at he
        subst he; rfl
  · rw [ha] at he; cases he
    rcases dumpCommand_cases a s with ⟨e, h0, h1⟩ | ⟨-, h1⟩ | ⟨n, -, -, -, -, h1⟩ <;> rw [h1]
    · exact .inl ⟨_, h0, by simp [hi], rfl⟩
    · exact .inr (answered_nil _ _ rfl rfl)
    · exact .inr (dumpLoop_answered ..)
  · rw [ha] at he; cases he
    rcases seekCommand_cases w a s with ⟨e, h0, h1⟩ | ⟨t, -, -, -, h1⟩ <;> rw [h1]
    · exact .inl ⟨_, h0, by simp [hi], rfl⟩
    · exact .inr (answered_nil _ _ (by rw [setOffset_out, (reposition_frame t s).2.1.out]) rfl)
  · rw [exec, execTell] at he; cases he
    split
    · exact .inr (answered_nil _ _ rfl rfl)
    · exact .inl ⟨_, rfl, by simp [isInit], rfl⟩

/-- A command word, reserved or not, is answered by one response after its data (R88). -/
theorem runWord_out {w : CommandWord} {s t : State} (h : runWord w s = .next t) :
    ∃ data r, t.out = s.out ++ data ++ [.resp r] ∧ ∀ e ∈ data, e.isResp = false := by
  have refused : ∀ st, ∃ data r, (raise st s).out = s.out ++ data ++ [.resp r] ∧
      ∀ e ∈ data, PortEvent.isResp e = false :=
    fun st => ⟨[], ⟨st, 0⟩, by rw [raise_eq, List.append_nil], by simp⟩
  cases hd : decode w with
  | error e => rw [runWord_of_reject hd] at h; cases h; exact refused _
  | ok i =>
    rw [runWord_of_decode hd] at h
    rcases exec_answer h with ⟨st, -, -, rfl⟩ | ⟨data, r, h1, h2, -⟩
    · exact refused st
    · exact ⟨data, r, h1, h2⟩

/-- The data transfers of a command that has been answered, up to the first `k` (R300). -/
theorem dataSent_of_out {s t : State} {data : List PortEvent} {r : Response}
    (h : t.out = s.out ++ data ++ [.resp r]) (hd : ∀ e ∈ data, e.isResp = false) (k : Nat) :
    dataSent k s t = data.take k := by
  have hf : data.filter (fun e => !e.isResp) = data := List.filter_eq_self.2 fun e he => by rw [hd e he]; rfl
  rw [dataSent, h, List.append_assoc, List.drop_left, List.filter_append, hf]
  simp [PortEvent.isResp]

end Sys2Proof.Machine
end

