-- ==== Sys2Proof/Tests/Slice0.lean ====
section
/-! SUPPORT. The model's own tests. Every expected value comes from the spec: the words of 30_encoding.md, the
check values of 46_aes256.md rule R239 and 47_sha256.md rule R257, and the vectors of 95_test_vectors.md, named
V1 to V8. The second half gives, for every statement with hypotheses, states and operands that meet them. -/

namespace Sys2Proof.Tests

open Sys2Proof Sys2Proof.Machine

-- one theorem at a time: the many kernel evaluations below would otherwise wait for one another in threads
set_option Elab.async false

/-! ### Sample states -/

/-- The key of the seed "seed1" (V2). -/
def key1 : Key := 0xdf9ecf4c79e5ad77701cfc88c196632b353149d85810a381f469f8fc05dc1b92#256

/-- The engine of the seed "seed1" right after `INIT` (V2). -/
def fresh : State where
  ready := true
  key := key1
  ctr := 0
  half := false
  buf := 0
  bufLen := 0
  bufPos := 0
  offset := 0
  maxValid := false
  maxSize := 0
  inbox := []
  seedIn := []
  rndIn := []
  sinkIn := []
  out := []
  draws := 0

/-- The same with the bound `n`. -/
def bounded (n : Word64) : State := { fresh with maxValid := true, maxSize := n }

/-- That engine after `READ 3` (V5). -/
def mid : State :=
  { fresh with half := true, buf := 0x9b8741975df1f42a#64, bufLen := 8, bufPos := 3, offset := 3 }

/-- That engine with two bytes left before the last position, 2^63 − 2 (V5 (l)). -/
def last : State :=
  { fresh with
    ctr := BitVec.ofNat 128 (2 ^ 59), buf := 0xbee7435c5c634961#64, bufLen := 8, bufPos := 6,
    offset := 0x7ffffffffffffffe#64 }

/-- An engine that no `INIT` has made ready. -/
def unready : State := { fresh with ready := false }

/-- The state a command or a step ends in. -/
def nextOf : Host.Outcome State Fault Refusal → Option State
  | .next t => some t
  | .fault _ => none
  | .refused _ => none

/-- What a micro-operation returns and leaves. -/
def microOf : Host.Outcome (List Byte × State) Fault Refusal → Option (List Byte × State)
  | .next t => some t
  | .fault _ => none
  | .refused _ => none

/-- The bytes of a number, written in hexadecimal as the vectors write them. -/
def hex (n v : Nat) : List Byte := be n v

/-! ### Well-formedness: an ill-formed command for each check -/

theorem test_wf_initSeed_length : (Instr.initSeed (2 ^ 64)).wellFormed = false := by decide
theorem test_wf_initRndMax_bound : (Instr.initRndMax (2 ^ 64)).wellFormed = false := by decide
theorem test_wf_initSeedMax_length : (Instr.initSeedMax (2 ^ 64) 0).wellFormed = false := by decide
theorem test_wf_initSeedMax_bound : (Instr.initSeedMax 0 (2 ^ 64)).wellFormed = false := by decide
theorem test_wf_read_size : (Instr.read (2 ^ 64)).wellFormed = false := by decide
theorem test_wf_seekSet_above : (Instr.seekSet (2 ^ 63)).wellFormed = false := by decide
theorem test_wf_seekCur_below : (Instr.seekCur (-2 ^ 63 - 1)).wellFormed = false := by decide
theorem test_wf_seekEnd_above : (Instr.seekEnd (2 ^ 63)).wellFormed = false := by decide
theorem test_wf_dump_size : (Instr.dump (2 ^ 64)).wellFormed = false := by decide
theorem test_wf_extremes :
    (Instr.read (2 ^ 64 - 1)).wellFormed = true ∧ (Instr.seekSet (-2 ^ 63)).wellFormed = true := by decide

/-! ### Decoding: one word for each row, written field by field from R83 to R86 and R94 -/

theorem test_decode_initRnd : decode 0x01_00_0000000000000000_0000000000000000#144 = .ok .initRnd := by
  decide +kernel
theorem test_decode_initSeed : decode 0x01_01_0000000000000005_0000000000000000#144 = .ok (.initSeed 5) := by
  decide +kernel
theorem test_decode_initRndMax :
    decode 0x01_02_0000000000000000_00000000000249f0#144 = .ok (.initRndMax 150000) := by decide +kernel
theorem test_decode_initSeedMax :
    decode 0x01_03_0000000000000006_0000000000000064#144 = .ok (.initSeedMax 6 100) := by decide +kernel
theorem test_decode_readAll : decode 0x02_00_0000000000000000_0000000000000000#144 = .ok .readAll := by
  decide +kernel
theorem test_decode_read :
    decode 0x02_01_ffffffffffffffff_0000000000000000#144 = .ok (.read 18446744073709551615) := by decide +kernel
theorem test_decode_seekSet :
    decode 0x03_00_8000000000000000_0000000000000000#144 = .ok (.seekSet (-9223372036854775808)) := by
  decide +kernel
theorem test_decode_seekCur : decode 0x03_01_fffffffffffffff5_0000000000000000#144 = .ok (.seekCur (-11)) := by
  decide +kernel
theorem test_decode_seekEnd : decode 0x03_02_000000000000000a_0000000000000000#144 = .ok (.seekEnd 10) := by
  decide +kernel
theorem test_decode_tell : decode 0x04_00_0000000000000000_0000000000000000#144 = .ok .tell := by decide +kernel
theorem test_decode_dumpAll : decode 0x05_00_0000000000000000_0000000000000000#144 = .ok .dumpAll := by
  decide +kernel
theorem test_decode_dump : decode 0x05_01_0000000000030d40_0000000000000000#144 = .ok (.dump 200000) := by
  decide +kernel

/-- Reserved words of V8. -/
theorem test_decode_reserved :
    decode 0x06_00_0000000000000000_0000000000000000#144 = .error .unassignedOpcode ∧
    decode 0x01_04_0000000000000000_0000000000000000#144 = .error .unlistedModBit ∧
    decode 0x01_01_0000000000000005_0000000000000001#144 = .error .unusedFieldNonzero ∧
    decode 0x02_02_0000000000000000_0000000000000000#144 = .error .unlistedModBit ∧
    decode 0x02_01_0000000000000008_0000000000000001#144 = .error .unusedFieldNonzero ∧
    decode 0x03_80_0000000000000000_0000000000000000#144 = .error .unlistedModBit ∧
    decode 0x03_03_0000000000000000_0000000000000000#144 = .error .reservedWhence ∧
    decode 0x04_01_0000000000000000_0000000000000000#144 = .error .unlistedModBit := by decide +kernel

/-- The first example of R94 as it stands on `cmd`, byte by byte (R82). -/
theorem test_decodeBytes :
    decodeBytes [0x01, 0x01, 0, 0, 0, 0, 0, 0, 0, 5, 0, 0, 0, 0, 0, 0, 0, 0] = .ok (.initSeed 5) ∧
    encodeBytes (.seekCur (-11)) =
      [0x03, 0x01, 0xff, 0xff, 0xff, 0xff, 0xff, 0xff, 0xff, 0xf5, 0, 0, 0, 0, 0, 0, 0, 0] := by decide +kernel

theorem test_decodeTableWord :
    decodeTableWord 144 0x020100000000000000320000000000000000 = some (.read 50) := by decide +kernel

/-- A row's word as the first command after reset (V8: `READ 8` before an `INIT`). -/
theorem test_withFetchWord :
    step (unready.withFetchWord 144 0x020100000000000000080000000000000000) =
      .next { unready with out := [.resp ⟨.notReady, 0⟩] } := by
  have h : decode (tableWord 144 0x020100000000000000080000000000000000) = .ok (.read 8) := by decide +kernel
  rw [step_command (w := tableWord 144 0x020100000000000000080000000000000000) (rest := []) rfl,
    runWord_of_decode h]
  rfl

/-! ### The primitives (R239, R257, V1) -/

theorem test_aes_fips :
    aesEncrypt 0x000102030405060708090a0b0c0d0e0f101112131415161718191a1b1c1d1e1f#256
      0x00112233445566778899aabbccddeeff#128 = 0x8ea2b7ca516745bfeafc49904b496089#128 := by decide +kernel
theorem test_stream_block : streamBlock key1 1 = 0x09b0efd90570e157178a39c6213b5e36#128 := by decide +kernel
theorem test_sha_abc :
    sha256 [0x61, 0x62, 0x63] = 0xba7816bf8f01cfea414140de5dae2223b00361a396177a9cb410ff61f20015ad#256 := by
  decide +kernel
theorem test_sha_empty :
    sha256 [] = 0xe3b0c44298fc1c149afbf4c8996fb92427ae41e4649b934ca495991b7852b855#256 := by decide +kernel

/-! ### `INIT` (V2) -/

theorem test_initSeed :
    nextOf (exec (.initSeed 5) { unready with seedIn := [0x73, 0x65, 0x65, 0x64, 0x31, 0xaa] }) =
      some { fresh with seedIn := [0xaa], out := [.resp ⟨.ok, 0⟩] } := by decide +kernel
theorem test_initRnd :
    nextOf (exec .initRnd { mid with rndIn := (List.range 33).map (BitVec.ofNat 8) }) =
      some { fresh with
        key := 0x000102030405060708090a0b0c0d0e0f101112131415161718191a1b1c1d1e1f#256, rndIn := [0x20],
        out := [.resp ⟨.ok, 0⟩] } := by decide +kernel
theorem test_initSeedMax :
    (nextOf (exec (.initSeedMax 6 100) { mid with seedIn := hex 6 0x313233343536 })).map
        (fun t => (t.key, t.maxValid, t.maxSize)) =
      some (0x8d969eef6ecad3c29a3a629280e686cf0c3f5d5a86aff3ca12020c923adc6c92#256, true, 100) := by
  decide +kernel
theorem test_initRndMax :
    (nextOf (exec (.initRndMax 20) { mid with rndIn := be 32 key1.toNat })).map
        (fun t => (t.key, t.offset, t.maxValid, t.maxSize)) = some (key1, 0, true, 20) := by decide +kernel
theorem test_initSeed_too_long :
    nextOf (exec (.initSeed (2 ^ 61)) { mid with seedIn := [0x73] }) =
      some { mid with seedIn := [0x73], out := [.resp ⟨.invalidArgument, 0⟩] } := by decide +kernel

/-! ### Micro-operations (V3, V4) -/

/-- `READ_RAW(16)` from the middle of a block straddles two blocks. -/
theorem test_readRaw_straddles :
    microOf (microStep (.readRaw 16) { fresh with half := true }) =
      some (hex 16 0xe4aad3fbe5be070509b0efd90570e157, { fresh with ctr := 1, half := true }) := by decide +kernel
theorem test_cipherAt :
    ((cipherAt 11 mid).ctr, (cipherAt 11 mid).half) = (5, true) ∧
    ((cipherAt (2 ^ 37) mid).ctr.toNat, (cipherAt (2 ^ 37) mid).half) = (2 ^ 36, false) := by decide +kernel
theorem test_fillBuffer :
    microOf (microStep .fillBuffer { fresh with half := true, buf := 0x9b8741975df1f42a#64, bufLen := 8, bufPos := 8 }) =
      some ([], { fresh with ctr := 1, buf := 0xe4aad3fbe5be0705#64, bufLen := 8 }) := by decide +kernel
theorem test_readFromBuffer :
    microOf (microStep (.readFromBuffer 100) mid) = some (hex 5 0x975df1f42a, { mid with bufPos := 8 }) := by
  decide +kernel
theorem test_clearBuffer :
    microOf (microStep .clearBuffer mid) = some ([], { fresh with half := true, offset := 3 }) := by decide +kernel

/-! ### `READ` (V5) -/

theorem test_read_fifty :
    nextOf (exec (.read 50) fresh) =
      some { fresh with
        ctr := 3, half := true, buf := 0x49c4218b33398445#64, bufLen := 8, bufPos := 2, offset := 50
        out := [.dout (hex 50 0x9b8741975df1f42ae4aad3fbe5be070509b0efd90570e157178a39c6213b5e361dad6ab4236e1d2f122be6b180c8360649c4),
          .resp ⟨.ok, 50⟩] } := by decide +kernel
/-- V5 (c): drain, then a whole unit; the buffer stays stale. -/
theorem test_read_drain_then_unit :
    nextOf (exec (.read 13) mid) =
      some { mid with
        ctr := 1, half := false, bufPos := 8, offset := 16
        out := [.dout (hex 13 0x975df1f42ae4aad3fbe5be0705), .resp ⟨.ok, 13⟩] } := by decide +kernel
/-- V5 (h). -/
theorem test_readAll_bounded :
    nextOf (exec .readAll (bounded 20)) =
      some { bounded 20 with
        ctr := 1, half := true, buf := 0x09b0efd90570e157#64, bufLen := 8, bufPos := 4, offset := 20
        out := [.dout (hex 20 0x9b8741975df1f42ae4aad3fbe5be070509b0efd9), .resp ⟨.ok, 20⟩] } := by
  decide +kernel
/-- V5 (k). -/
theorem test_readAll_unbounded :
    nextOf (exec .readAll mid) = some { mid with out := [.resp ⟨.invalidArgument, 0⟩] } := by decide +kernel

/-! ### `SEEK` (V6) -/

theorem test_seekSet_inside :
    nextOf (exec (.seekSet 31) mid) =
      some { fresh with
        ctr := 2, buf := 0x178a39c6213b5e36#64, bufLen := 8, bufPos := 7, offset := 31
        out := [.resp ⟨.ok, 0⟩] } := by decide +kernel
theorem test_seekSet_negative :
    nextOf (exec (.seekSet (-1)) mid) = some { mid with out := [.resp ⟨.invalidArgument, 0⟩] } := by
  decide +kernel
theorem test_seekCur :
    nextOf (exec (.seekCur (-11)) { fresh with ctr := 1, half := true, offset := 24 }) =
      some { fresh with
        ctr := 1, buf := 0xe4aad3fbe5be0705#64, bufLen := 8, bufPos := 5, offset := 13
        out := [.resp ⟨.ok, 0⟩] } := by decide +kernel
theorem test_seekEnd :
    nextOf (exec (.seekEnd 10) (bounded 100)) =
      some { bounded 100 with
        ctr := 6, buf := 0xffb65b28d572a2de#64, bufLen := 8, bufPos := 2, offset := 90
        out := [.resp ⟨.ok, 0⟩] } := by decide +kernel
theorem test_seekEnd_unbounded :
    nextOf (exec (.seekEnd (-5)) mid) = some { mid with out := [.resp ⟨.invalidOperation, 0⟩] } := by
  decide +kernel

/-! ### `TELL` and `DUMP` (V7) -/

theorem test_tell : nextOf (exec .tell mid) = some { mid with out := [.resp ⟨.ok, 3⟩] } := by decide +kernel
theorem test_tell_unready :
    nextOf (exec .tell unready) = some { unready with out := [.resp ⟨.notReady, 0⟩] } := by decide +kernel
theorem test_dump_ok :
    nextOf (exec (.dump 10) { fresh with sinkIn := [.ok] }) =
      some { fresh with
        ctr := 1, buf := 0xe4aad3fbe5be0705#64, bufLen := 8, bufPos := 2, offset := 10
        out := [.sinkWrite (hex 10 0x9b8741975df1f42ae4aa) .ok, .resp ⟨.ok, 10⟩] } := by decide +kernel
theorem test_dump_fail :
    (nextOf (exec (.dump 100) { fresh with sinkIn := [.fail] })).map
        (fun t => (t.ctr, t.buf, t.offset, t.out.drop 1)) =
      some (6, 0x459db05efb24e512#64, 100, [.resp ⟨.ioFailure, 0⟩]) := by decide +kernel
theorem test_dumpAll :
    (nextOf (exec .dumpAll { bounded 20 with sinkIn := [.ok] })).map (fun t => (t.offset, t.out)) =
      some (20, [.sinkWrite (hex 20 0x9b8741975df1f42ae4aad3fbe5be070509b0efd9) .ok, .resp ⟨.ok, 20⟩]) := by
  decide +kernel

/-! ### Responses and the host's side (R82, R91, R111, V2) -/

theorem test_response_bytes :
    Response.bytes ⟨.ioFailure, 0x20000⟩ = [0x03, 0, 0, 0, 0, 0, 0x02, 0, 0] := by decide +kernel
theorem test_canonical_int :
    canonicalBytes (.int (-5)) = some [0x2d, 0x35] ∧
      canonicalBytes (.int 123456) = some (hex 6 0x313233343536) := by decide +kernel
theorem test_issue_new :
    (HostCall.new (some (.int 123456)) (some 100)).issue =
      some ⟨[.initSeedMax 6 100], hex 6 0x313233343536⟩ := by decide +kernel

/-- A call whose operand lies outside the ranges of R91 issues nothing (log entry 20); the operands inside do. -/
theorem test_issue_without_word :
    (HostCall.readAt 0 (2 ^ 64)).issue = none ∧ (HostCall.seek (2 ^ 70) .set).issue = none ∧
    (HostCall.new none (some (2 ^ 64))).issue = none ∧
    (HostCall.readAt 0 (2 ^ 64 - 1)).issue = some ⟨[.seekSet 0, .read (2 ^ 64 - 1)], []⟩ := by decide +kernel

/-! ### Witnesses: states and operands that meet the hypotheses of the statements -/

/-- A new engine satisfies `INV`. -/
theorem fresh_consistent : fresh.Consistent :=
  Consistent.of_empty (u := 0) (.inl rfl) rfl rfl rfl (Nat.zero_le _)

/-- The bound is no part of `INV`. -/
theorem bounded_consistent (n : Word64) : (bounded n).Consistent :=
  Consistent.of_empty (u := 0) (.inl rfl) rfl rfl rfl (Nat.zero_le _)

/-- The state with a half-used buffer satisfies `INV` (V5). -/
theorem mid_consistent : mid.Consistent :=
  ⟨.inr rfl, by decide, by decide, by decide +kernel, by decide⟩

/-- The state at the end of the stream space satisfies `INV` (V5 (l)). -/
theorem last_consistent : last.Consistent :=
  ⟨.inr rfl, by decide, by decide +kernel, by decide +kernel, by decide +kernel⟩

theorem test_witness_DecodeOfEncodeIsTheCommand :
    (Instr.initSeedMax (2 ^ 64 - 1) 0).wellFormed = true ∧ (Instr.seekEnd (-2 ^ 63)).wellFormed = true ∧
      (Instr.seekCur (2 ^ 63 - 1)).wellFormed = true := by decide

theorem test_witness_EncodeOfDecodeIsTheWord :
    decode 0x03_00_7fffffffffffffff_0000000000000000#144 = .ok (.seekSet 9223372036854775807) := by
  decide +kernel

theorem test_witness_StepExecutesTheDecodedCommand :
    ∃ (s : State) (w : CommandWord) (rest : List HostEvent) (i : Instr),
      s.inbox = .command w :: rest ∧ decode w = .ok i ∧ i.wellFormed = true :=
  ⟨{ mid with inbox := [.command 0x040000000000000000000000000000000000#144] }, _, [], .tell, rfl,
    by decide +kernel, rfl⟩

theorem test_witness_ReservedWordIsRefused :
    ∃ (s : State) (w : CommandWord) (rest : List HostEvent), s.inbox = .command w :: rest ∧ ReservedWord w :=
  ⟨{ unready with inbox := [.command 0#144] }, 0#144, [], rfl, .inl (by decide +kernel)⟩

/-- One reserved word for each clause of `ReservedWord`. -/
theorem test_witness_ReservedWord_clauses :
    ReservedWord 0x06_00_0000000000000000_0000000000000000#144 ∧
    ReservedWord 0x01_04_0000000000000000_0000000000000000#144 ∧
    ReservedWord 0x02_01_0000000000000008_0000000000000001#144 ∧
    ReservedWord 0x03_03_0000000000000000_0000000000000000#144 ∧
    ReservedWord 0x04_00_0000000000000000_0000000000000001#144 :=
  ⟨.inl (by decide +kernel), .inr (.inl (by decide +kernel)), .inr (.inr (.inl (by decide +kernel))),
    .inr (.inr (.inr (.inl (by decide +kernel)))), .inr (.inr (.inr (.inr (by decide +kernel))))⟩

theorem test_witness_IdleEngineHoldsItsState : ∃ s : State, s.inbox = [] := ⟨fresh, rfl⟩

theorem test_witness_ResetClearsReady : ∃ (s : State) (rest : List HostEvent), s.inbox = .reset :: rest :=
  ⟨{ mid with inbox := [.reset] }, [], rfl⟩

/-- A `DUMP` of four chunks cut after two of them, and a `READ` cut before its data. -/
theorem test_witness_ResetAbandonsTheCommand :
    (∃ (s : State) (w : CommandWord) (rest : List HostEvent), s.inbox = .commandCutByReset w 2 :: rest ∧
      decode w = .ok (.dump 200000) ∧ s.ready = true) ∧
    ∃ (s : State) (w : CommandWord) (rest : List HostEvent), s.inbox = .commandCutByReset w 0 :: rest ∧
      decode w = .ok (.read 4) ∧ s.ready = true :=
  ⟨⟨{ fresh with
      inbox := [.commandCutByReset 0x05010000000000030d400000000000000000#144 2], sinkIn := [.ok, .ok] },
      _, [], rfl, by decide +kernel, rfl⟩,
    ⟨{ mid with inbox := [.commandCutByReset 0x020100000000000000040000000000000000#144 0] }, _, [], rfl,
      by decide +kernel, rfl⟩⟩

/-- R300: a `READ` cut after its one transfer has put its bytes on `dout` and answers nothing. -/
theorem test_cut_keeps_what_was_sent :
    (nextOf (step { mid with inbox := [.commandCutByReset 0x020100000000000000040000000000000000#144 1] })).map
        (fun t => (t.out, t.ready)) = some ([.dout (hex 4 0x975df1f4)], false) := by decide +kernel

/-- One word for each clause: `INIT`, `READ`, `SEEK`, `TELL`, `DUMP`, and two that are refused (`READ *` without
a bound, a reserved word). -/
theorem test_witness_OneResponsePerCommandWithItsValue :
    (∀ w, ({ mid with inbox := [.command w], sinkIn := [.ok] } : State).Inv) ∧
    decode 0x010000000000000000000000000000000000#144 = .ok .initRnd ∧
    decode 0x020100000000000000040000000000000000#144 = .ok (.read 4) ∧
    decode 0x0301fffffffffffffffd0000000000000000#144 = .ok (.seekCur (-3)) ∧
    decode 0x040000000000000000000000000000000000#144 = .ok .tell ∧
    decode 0x0501000000000000000a0000000000000000#144 = .ok (.dump 10) ∧
    decode 0x020000000000000000000000000000000000#144 = .ok .readAll ∧
    decode 0#144 = .error .unassignedOpcode :=
  ⟨fun _ _ => mid_consistent.congr ⟨rfl, rfl, rfl, rfl, rfl, rfl, rfl, rfl, rfl, rfl⟩, by decide +kernel⟩

/-- In each clause the response is one that the clause speaks of: accepted for the five, refused for the two. -/
theorem test_witness_OneResponse_statuses :
    [Instr.initRnd, .read 4, .seekCur (-3), .tell, .dump 10, .readAll].map (fun i =>
        (nextOf (exec i { mid with sinkIn := [.ok], rndIn := hex 32 0 })).bind fun t => t.out.getLast?) =
      [some (.resp ⟨.ok, 0⟩), some (.resp ⟨.ok, 4⟩), some (.resp ⟨.ok, 0⟩), some (.resp ⟨.ok, 3⟩),
        some (.resp ⟨.ok, 10⟩), some (.resp ⟨.invalidArgument, 0⟩)] := by decide +kernel

theorem test_witness_InitWithSeedSetsEveryRegister :
    (5 : Nat) ≤ Config.seedLenMax ∧ 2 ^ 61 - 1 ≤ Config.seedLenMax ∧ (2 ^ 64 - 1 : Nat) < 2 ^ 64 := by decide

theorem test_witness_InitWithoutSeedTakesTheKeyFromRnd : (0 : Nat) < 2 ^ 64 ∧ (2 ^ 64 - 1 : Nat) < 2 ^ 64 := by
  decide

theorem test_witness_TooLongSeedIsRefused : Config.seedLenMax < 2 ^ 61 := by decide

theorem test_witness_InitKeepsNothingOfTheEarlierLifetime :
    ∃ (i : Instr) (s s' t t' : State), isInit i = true ∧ SamePorts s s' ∧ s ≠ s' ∧ exec i s = .next t ∧
      exec i s' = .next t' ∧ t.out ≠ s.out ++ [.resp ⟨.invalidArgument, 0⟩] :=
  ⟨.initRnd, mid, fresh, _, _, rfl, ⟨rfl, rfl, rfl, rfl, rfl, rfl⟩, by decide +kernel, rfl, rfl,
    by decide +kernel⟩

/-- Without a bound, and with one that clamps the `READ`. -/
theorem test_witness_EqualSeedsGiveEqualStreams :
    (∃ (s : State) (seed later : List Byte) (i : Instr) (a n : Nat) (rest : List HostEvent),
      (i = .initSeed seed.length ∧ n = a) ∧
        s.inbox = .command (encode i) :: .command (encode (.read a)) :: rest ∧
        s.seedIn = seed ++ later ∧ seed.length ≤ Config.seedLenMax ∧ a < 2 ^ 64 ∧ 0 < n ∧
        n ≤ Config.offsetMax) ∧
    ∃ (s : State) (seed later : List Byte) (i : Instr) (a n : Nat) (rest : List HostEvent),
      (∃ m, m < 2 ^ 64 ∧ i = .initSeedMax seed.length m ∧ n = min a m ∧ n < a) ∧
        s.inbox = .command (encode i) :: .command (encode (.read a)) :: rest ∧
        s.seedIn = seed ++ later ∧ seed.length ≤ Config.seedLenMax ∧ a < 2 ^ 64 ∧ 0 < n ∧
        n ≤ Config.offsetMax :=
  ⟨⟨{ mid with
        inbox := [.command (encode (.initSeed 1)), .command (encode (.read 50))], seedIn := [0x30, 0x31] },
      [0x30], [0x31], _, 50, 50, [], ⟨rfl, rfl⟩, rfl, rfl, by decide, by decide, by decide, by decide⟩,
    ⟨{ mid with
        inbox := [.command (encode (.initSeedMax 1 20)), .command (encode (.read 50))], seedIn := [0x30] },
      [0x30], [], _, 50, 20, [], ⟨20, by decide, rfl, rfl, by decide⟩, rfl, rfl, by decide, by decide,
      by decide, by decide⟩⟩

/-- `READ` at the last readable byte, clamped by the bound, and with the size omitted. -/
theorem test_witness_ReadDeliversTheStream :
    (last.ready = true ∧ last.Inv ∧ last.maxValid = false ∧ last.offset.toNat + 1 ≤ Config.offsetMax) ∧
    ((bounded 20).ready = true ∧ (bounded 20).Inv ∧
      (20 : Int) = (if (bounded 20).maxValid then
        min (50 : Int) ((bounded 20).maxSize.toNat - (bounded 20).offset.toNat) else 50) ∧
      (20 : Int) = (bounded 20).maxSize.toNat - (bounded 20).offset.toNat ∧
      (bounded 20).offset.toNat + 20 ≤ Config.offsetMax) :=
  ⟨⟨rfl, fun _ => last_consistent, rfl, by decide +kernel⟩,
    ⟨rfl, fun _ => bounded_consistent 20, by decide +kernel, by decide +kernel, by decide +kernel⟩⟩

theorem test_witness_NonPositiveSizeTouchesNothing :
    fresh.ready = true ∧
      (if fresh.maxValid then min ((0 : Nat) : Int) (fresh.maxSize.toNat - fresh.offset.toNat)
        else ((0 : Nat) : Int)) ≤ 0 ∧
      (bounded 0).ready = true ∧ (bounded 0).maxValid = true ∧
      (bounded 0).maxSize.toNat ≤ (bounded 0).offset.toNat := by decide +kernel

theorem test_witness_MissingSizeIsRefused : mid.ready = true ∧ mid.maxValid = false := ⟨rfl, rfl⟩

/-- Two bytes at the last readable byte but one, and a bound above the last position. -/
theorem test_witness_SizeBeyondLastPositionIsRefused :
    (last.ready = true ∧ (0 : Int) < 2 ∧ (Config.offsetMax : Int) < last.offset.toNat + 2 ∧
      (2 : Int) = if last.maxValid then min ((2 : Nat) : Int) (last.maxSize.toNat - last.offset.toNat)
        else ((2 : Nat) : Int)) ∧
    ∃ n : Int, 0 < n ∧ (Config.offsetMax : Int) < (bounded (-1)).offset.toNat + n ∧
      (bounded (-1)).maxValid = true ∧ n = (bounded (-1)).maxSize.toNat - (bounded (-1)).offset.toNat :=
  ⟨by decide +kernel, 18446744073709551615, by decide +kernel⟩

/-- The engine of the bound `n` after `READ 3` (V5, V6). -/
def midBounded (n : Word64) : State := { mid with maxValid := true, maxSize := n }

/-- The bound is no part of `INV`. -/
theorem midBounded_consistent (n : Word64) : (midBounded n).Consistent :=
  ⟨mid_consistent.len, mid_consistent.pos, mid_consistent.aligned, mid_consistent.bytes, mid_consistent.range⟩

/-- All five buffered bytes without a bound, and two of them under the bound 5, clamped and with no size. -/
theorem test_witness_ReadServedFromTheBuffer :
    (mid.ready = true ∧ mid.Inv ∧ mid.maxValid = false ∧ 5 ≤ mid.rem ∧
      mid.offset.toNat + 5 ≤ Config.offsetMax) ∧
    ((midBounded 5).ready = true ∧ (midBounded 5).Inv ∧ (midBounded 5).maxValid = true ∧
      ((2 : Nat) : Int) = min (50 : Int) ((midBounded 5).maxSize.toNat - (midBounded 5).offset.toNat) ∧
      ((2 : Nat) : Int) = (midBounded 5).maxSize.toNat - (midBounded 5).offset.toNat ∧
      2 ≤ (midBounded 5).rem) :=
  ⟨⟨rfl, fun _ => mid_consistent, rfl, by decide +kernel, by decide +kernel⟩,
    ⟨rfl, fun _ => midBounded_consistent 5, rfl, by decide +kernel, by decide +kernel, by decide +kernel⟩⟩

/-- Thirteen bytes from `mid`, eight from a new engine, and the rest of the bound 16. -/
theorem test_witness_ReadEndingOnUnitLeavesBufferDrained :
    mid.rem < 13 ∧ (13 - mid.rem) % 8 = 0 ∧ mid.offset.toNat + 13 ≤ Config.offsetMax ∧
      fresh.rem < 8 ∧ (8 - fresh.rem) % 8 = 0 ∧
      ((13 : Nat) : Int) = (midBounded 16).maxSize.toNat - (midBounded 16).offset.toNat ∧
      (midBounded 16).rem < 13 ∧ (13 - (midBounded 16).rem) % 8 = 0 := by decide +kernel

/-- Six bytes from `mid`, one from a new engine, and the rest of the bound 9. -/
theorem test_witness_ReadEndingInsideUnitLeavesItBuffered :
    mid.rem < 6 ∧ (6 - mid.rem) % 8 ≠ 0 ∧ mid.offset.toNat + 6 ≤ Config.offsetMax ∧
      fresh.rem < 1 ∧ (1 - fresh.rem) % 8 ≠ 0 ∧
      ((6 : Nat) : Int) = (midBounded 9).maxSize.toNat - (midBounded 9).offset.toNat ∧
      (midBounded 9).rem < 6 ∧ (6 - (midBounded 9).rem) % 8 ≠ 0 := by decide +kernel

/-- Without a bound, and up to the bound exactly. -/
theorem test_witness_SplitReadsDeliverTheSameBytes :
    (∃ (sizes : List Nat) (s : State) (rest : List HostEvent), s.ready = true ∧ s.Inv ∧ s.maxValid = false ∧
      s.offset.toNat + sizes.sum ≤ Config.offsetMax ∧
      s.inbox = sizes.map (fun n => HostEvent.command (encode (.read n))) ++ rest) ∧
    ∃ (sizes : List Nat) (s : State) (rest : List HostEvent), s.ready = true ∧ s.Inv ∧ s.maxValid = true ∧
      s.offset.toNat + sizes.sum ≤ Config.offsetMax ∧ s.offset.toNat + sizes.sum = s.maxSize.toNat ∧
      s.inbox = sizes.map (fun n => HostEvent.command (encode (.read n))) ++ rest :=
  ⟨⟨[7, 9, 0, 16, 18],
      { fresh with inbox := [7, 9, 0, 16, 18].map fun n => HostEvent.command (encode (.read n)) }, [], rfl,
      inv_inbox (fun _ => fresh_consistent) _, rfl, by decide +kernel, rfl⟩,
    ⟨[7, 13], { bounded 20 with inbox := [7, 13].map fun n => HostEvent.command (encode (.read n)) }, [], rfl,
      inv_inbox (fun _ => bounded_consistent 20) _, rfl, by decide +kernel, by decide +kernel, rfl⟩⟩

/-- The first and the last target, relative to the position and to the bound. -/
theorem test_witness_SeekRebuildsForTheTarget :
    (mid.ready = true ∧ 0 ≤ Config.offsetMax ∧ ((0 : Nat) : Int) = mid.offset.toNat + (-3)) ∧
    (Config.offsetMax % 8 ≠ 0 ∧ (Config.offsetMax : Int) = last.offset.toNat + 1) ∧
    ((bounded 100).maxValid = true ∧ ((120 : Nat) : Int) = (bounded 100).maxSize.toNat - (-20)) := by
  decide +kernel

/-- Just below 0 and just above the last position, for each `whence`; and no bound. -/
theorem test_witness_IllegalSeekIsRefused :
    ((-1 : Int) < 0 ∧ (Config.offsetMax : Int) < 2 ^ 63) ∧
    ((mid.offset.toNat : Int) + -4 < 0 ∧ (Config.offsetMax : Int) < last.offset.toNat + 2) ∧
    ((bounded 100).maxValid = true ∧ ((bounded 100).maxSize.toNat : Int) - 101 < 0) ∧
    ((bounded (-1)).maxValid = true ∧ (Config.offsetMax : Int) < (bounded (-1)).maxSize.toNat - 9223372036854775807) ∧
    mid.maxValid = false := by decide +kernel

theorem test_witness_SeekForgetsTheHistory :
    ∃ (s s' t t' : State), s.ready = true ∧ s'.ready = true ∧ s.key = s'.key ∧ s ≠ s' ∧
      exec (.seekSet 8) s = .next t ∧ exec (.seekSet 8) s' = .next t' ∧ t.out = s.out ++ [.resp ⟨.ok, 0⟩] :=
  ⟨mid, fresh, _, _, rfl, rfl, rfl, by decide +kernel, rfl, rfl, rfl⟩

/-- Without a bound, and with one that clamps: `max = 100`, `READAT 90, 100` gives the ten bytes of R175 (e). -/
theorem test_witness_ReadAtDeliversTheBytesAtThePosition :
    (mid.ready = true ∧ mid.inbox = [] ∧ mid.maxValid = false ∧ (4 : Nat) < 2 ^ 64 ∧
      4095 + 4 ≤ Config.offsetMax) ∧
    ((bounded 100).ready = true ∧ (bounded 100).inbox = [] ∧ (bounded 100).maxValid = true ∧
      ((10 : Nat) : Int) = min (100 : Int) ((bounded 100).maxSize.toNat - (90 : Nat)) ∧
      90 + 10 ≤ Config.offsetMax) := by decide +kernel

theorem test_witness_SeekReadParity :
    (fresh.ready = true ∧ fresh.Inv ∧ fresh.offset = 0 ∧ fresh.maxValid = false ∧
      4095 + 4 ≤ Config.offsetMax) ∧
    ((bounded 100).Inv ∧ (bounded 100).offset = 0 ∧ (bounded 100).maxValid = true ∧
      90 + 10 ≤ (bounded 100).maxSize.toNat) :=
  ⟨⟨rfl, fun _ => fresh_consistent, rfl, rfl, by decide⟩,
    ⟨fun _ => bounded_consistent 100, rfl, rfl, by decide +kernel⟩⟩

theorem test_witness_TellAnswersThePosition : mid.ready = true ∧ unready.ready = false := ⟨rfl, rfl⟩

/-- Two chunks, the second of one byte, with both answers `ok`. -/
theorem test_witness_AcceptedDumpWritesTheStream :
    ∃ (s : State) (n : Nat) (later : List SinkAnswer), s.ready = true ∧ s.Inv ∧ s.maxValid = false ∧ n = 65537 ∧
      s.offset.toNat + n ≤ Config.offsetMax ∧
      s.sinkIn = List.replicate ((n + 65535) / 65536) .ok ++ later :=
  ⟨{ mid with sinkIn := [.ok, .ok, .fail] }, 65537, [.fail], rfl,
    fun _ => mid_consistent.congr ⟨rfl, rfl, rfl, rfl, rfl, rfl, rfl, rfl, rfl, rfl⟩, rfl, rfl,
    by decide +kernel, by decide +kernel⟩

/-- The second chunk fails (V7: `DUMP 70000`). -/
theorem test_witness_FailedDumpStopsPastTheFailedChunk :
    ∃ (s : State) (n k : Nat) (later : List SinkAnswer), s.ready = true ∧ s.Inv ∧ s.maxValid = false ∧
      n = 70000 ∧ s.offset.toNat + n ≤ Config.offsetMax ∧ 65536 * k < n ∧
      s.sinkIn = List.replicate k .ok ++ .fail :: later :=
  ⟨{ fresh with sinkIn := [.ok, .fail] }, 70000, 1, [], rfl,
    fun _ => fresh_consistent.congr ⟨rfl, rfl, rfl, rfl, rfl, rfl, rfl, rfl, rfl, rfl⟩, rfl, rfl,
    by decide +kernel, by decide, by decide⟩

theorem test_witness_DumpCompletesWhateverTheSinkAnswers :
    (bounded 20).ready = true ∧ (bounded 20).Inv ∧ (bounded 20).maxValid = true ∧ (bounded 20).sinkIn = [] ∧
      ((20 : Nat) : Int) = (bounded 20).maxSize.toNat - (bounded 20).offset.toNat ∧
      (bounded 20).offset.toNat + 20 ≤ Config.offsetMax :=
  ⟨rfl, fun _ => bounded_consistent 20, rfl, rfl, by decide +kernel, by decide +kernel⟩

theorem test_witness_NotReadyBeforeInit :
    (unready.ready = false ∧ isInit (.read 8) = false) ∧
    ∃ (t : State) (before : List PortEvent) (r : Response), isInit (.initSeed (2 ^ 61)) = true ∧
      exec (.initSeed (2 ^ 61)) unready = .next t ∧ t.out = before ++ [.resp r] :=
  ⟨⟨rfl, rfl⟩, { unready with out := [.resp ⟨.invalidArgument, 0⟩] }, [], ⟨.invalidArgument, 0⟩, rfl,
    by rw [exec, execInitSeed, initFromSeed, if_pos (by decide)]; rfl, rfl⟩

theorem test_witness_RefusalChangesNothing :
    ∃ (s t : State) (w : CommandWord) (rest : List HostEvent) (before : List PortEvent) (r : Response),
      s.inbox = .command w :: rest ∧ step s = .next t ∧ t.out = before ++ [.resp r] ∧
        r.status.isRefusal = true := by
  refine ⟨{ mid with inbox := [.command 0x020000000000000000000000000000000000#144] },
    { mid with out := [.resp ⟨.invalidArgument, 0⟩] }, _, [], [], ⟨.invalidArgument, 0⟩, rfl, ?_, rfl, rfl⟩
  have h : decode 0x020000000000000000000000000000000000#144 = .ok .readAll := by decide +kernel
  rw [step_command (w := 0x020000000000000000000000000000000000#144) (rest := []) rfl, runWord_of_decode h]
  rfl

theorem test_witness_OnlyInitWritesKeyAndBound :
    ∃ t, isInit (.seekCur (-3)) = false ∧ exec (.seekCur (-3)) mid = .next t := ⟨_, rfl, rfl⟩

theorem test_witness_OnlyResetClearsReady :
    ∃ s t : State, s.ready = true ∧ step s = .next t ∧ t.ready = false :=
  ⟨{ mid with inbox := [.reset] }, _, rfl, rfl, rfl⟩

theorem test_witness_PositionMovesByTheBytesGenerated :
    ∃ t, mid.Inv ∧ mid.ready = true ∧ exec (.read 4) mid = .next t :=
  ⟨_, fun _ => mid_consistent, rfl, rfl⟩

theorem test_witness_ReadsNeverCrossTheBound :
    ∃ t, (bounded 20).Inv ∧ (bounded 20).ready = true ∧ (bounded 20).maxValid = true ∧
      exec (.read 50) (bounded 20) = .next t :=
  ⟨_, fun _ => bounded_consistent 20, rfl, rfl, rfl⟩

theorem test_witness_StepKeepsTheInvariant :
    ∃ s t : State, s.Inv ∧ s.ready = true ∧ step s = .next t ∧ t.ready = true :=
  ⟨{ mid with inbox := [] }, _, inv_inbox (fun _ => mid_consistent) _, rfl, rfl, rfl⟩

theorem test_witness_CounterStaysBelowItsModulus : last.ready = true ∧ last.Inv ∧ last.ctr.toNat = 2 ^ 59 :=
  ⟨rfl, fun _ => last_consistent, by decide +kernel⟩

/-- The two states of R33's example: `SEEK 8` leaves an empty buffer, `READ 3; READ 5` a drained one. -/
theorem test_witness_HiddenRegistersAreUnobservable :
    ∃ s t s' : State, ObsEq s t ∧ s ≠ t ∧ s.ready = true ∧ step s = .next s' :=
  ⟨{ fresh with half := true, offset := 8 },
    { fresh with half := true, buf := 0x9b8741975df1f42a#64, bufLen := 8, bufPos := 8, offset := 8 }, _,
    ⟨rfl, ⟨rfl, rfl, rfl, rfl, rfl, rfl⟩, fun _ => ⟨rfl, rfl, rfl, fun h => by cases h⟩,
      fun _ => Consistent.of_empty (u := 1) (.inl rfl) rfl rfl rfl (by decide +kernel),
      fun _ => Consistent.of_empty (u := 1) (.inr rfl) rfl rfl rfl (by decide +kernel)⟩,
    by decide +kernel, rfl, rfl⟩

theorem test_witness_RawReadReturnsWholeUnits :
    0 % 8 = 0 ∧ 48 % 8 = 0 ∧ fresh.nxt + 48 / 8 < 2 ^ 127 ∧ 5 % 8 ≠ 0 := by decide +kernel

theorem test_witness_BufferReadReturnsWhatIsThere :
    (mid.bufPos.toNat ≤ mid.bufLen.toNat ∧ mid.bufLen.toNat ≤ 8 ∧ mid.rem ≠ 0) ∧
      (fresh.bufPos.toNat ≤ fresh.bufLen.toNat ∧ fresh.bufLen.toNat ≤ 8 ∧ fresh.rem = 0) := by decide +kernel

theorem test_witness_BufferMicroOperations :
    mid.nxt < 2 ^ 127 ∧ 8 ≤ mid.bufLen.toNat ∧ mid.bufLen.toNat < 9 ∧ 0 ≤ fresh.bufLen.toNat ∧
      fresh.bufLen.toNat < 1 := by decide +kernel

/-- A drain with a remainder left to generate, one that whole units complete, one that serves the whole read; a
target inside a unit and one on a boundary. -/
theorem test_witness_GenerationStartsOnADrainedBuffer :
    mid.bufPos.toNat ≤ mid.bufLen.toNat ∧ mid.bufLen.toNat ≤ 8 ∧
      (6 - (readFromBuffer 6 mid).1.length) % 8 ≠ 0 ∧
      (readFromBuffer 13 mid).1.length < 13 ∧ (13 - (readFromBuffer 13 mid).1.length) % 8 = 0 ∧
      5 = (readFromBuffer 5 mid).1.length ∧ 13 % 8 ≠ 0 ∧ 16 % 8 = 0 := by decide +kernel

theorem test_witness_CipherAtStandsOnTheUnit : 2 ^ 60 - 1 < 2 ^ 128 := by decide

end Sys2Proof.Tests
end

section
/-! What one command and one step can do to any state: the frame of every command but `INIT` (spec rule
R39), the four forms of a step (R300, R305), and running a command from the word that encodes it. -/

namespace Sys2Proof.Machine

/-! ### Frames of the commands -/

theorem raise_sameBut (st : Status) (s : State) : SameBut s (raise st s) :=
  respond_sameBut st 0 [] s

/-- `READ` writes none of what `SameBut` lists, whatever its outcome (R39). -/
theorem readCommand_frame (size : Option Nat) (s : State) : SameBut s (readCommand size s) := by
  rcases readCommand_cases size s with ⟨e, -, h⟩ | ⟨-, h⟩ | ⟨n, -, -, -, -, h⟩ <;> rw [h]
  · exact raise_sameBut e s
  · exact respond_sameBut ..
  · exact deliver_frame n s

/-- `DUMP` writes none of what `SameBut` lists, whatever its outcome (R39). -/
theorem dumpCommand_frame (size : Option Nat) (s : State) : SameBut s (dumpCommand size s) := by
  rcases dumpCommand_cases size s with ⟨e, -, h⟩ | ⟨-, h⟩ | ⟨n, -, -, -, -, h⟩ <;> rw [h]
  · exact raise_sameBut e s
  · exact respond_sameBut ..
  · exact dumpLoop_frame ..

theorem setOffset_sameBut (t : Nat) (s : State) : SameBut s (setOffset t s) :=
  ⟨rfl, rfl, rfl, rfl, rfl, rfl, rfl⟩

/-- An accepted `SEEK` writes none of what `SameBut` lists (R39). -/
theorem seekTo_frame (t : Nat) (s : State) :
    SameBut s (respond .ok 0 [] (setOffset t (reposition t s))) :=
  ((reposition_frame t s).1.trans (setOffset_sameBut ..)).trans (respond_sameBut ..)

/-- `SEEK` writes none of what `SameBut` lists, whatever its outcome (R39). -/
theorem seekCommand_frame (w : Whence) (a : Int) (s : State) : SameBut s (seekCommand w a s) := by
  rcases seekCommand_cases w a s with ⟨e, -, h⟩ | ⟨t, -, -, -, h⟩ <;> rw [h]
  · exact raise_sameBut e s
  · exact seekTo_frame t s

/-- `TELL` answers the position (R210). -/
theorem exec_tell_of_ready {s : State} (h : s.ready = true) :
    exec .tell s = .next (respond .ok s.offset.toNat [] s) := by
  rw [exec, execTell, if_pos h]

/-- `TELL` is refused before the first `INIT` (R274). -/
theorem exec_tell_of_not_ready {s : State} (h : s.ready = false) :
    exec .tell s = .next (raise .notReady s) := by
  rw [exec, execTell, h]; rfl

/-- `TELL` answers the position, or is refused (R210). -/
theorem exec_tell_cases (s : State) :
    exec .tell s = .next (respond .ok s.offset.toNat [] s) ∨ exec .tell s = .next (raise .notReady s) := by
  cases h : s.ready with
  | true => exact .inl (exec_tell_of_ready h)
  | false => exact .inr (exec_tell_of_not_ready h)

/-- No command but `INIT` writes what `SameBut` lists (R39). -/
theorem exec_frame {i : Instr} {s t : State} (hi : isInit i = false) (he : exec i s = .next t) :
    SameBut s t := by
  rcases exec_forms i s with h | ⟨-, ⟨a, h⟩ | ⟨a, h⟩ | ⟨w, a, h⟩ | rfl⟩
  · rw [hi] at h; cases h
  · rw [h] at he; cases he; exact readCommand_frame a s
  · rw [h] at he; cases he; exact dumpCommand_frame a s
  · rw [h] at he; cases he; exact seekCommand_frame w a s
  · rcases exec_tell_cases s with h | h <;> rw [h] at he <;> cases he
    · exact respond_sameBut ..
    · exact raise_sameBut ..

/-- No command clears `ready` (R27). -/
theorem exec_keeps_ready {i : Instr} {s t : State} (hr : s.ready = true) (he : exec i s = .next t) :
    t.ready = true := by
  cases hi : isInit i with
  | true =>
    rcases exec_init_cases hi s with h | ⟨k, m, u, h, -⟩ <;> rw [h] at he <;> cases he
    · exact hr
    · rfl
  | false => exact (exec_frame hi he).ready.symm.trans hr

/-- No command word clears `ready` (R27). -/
theorem runWord_keeps_ready {w : CommandWord} {s t : State} (hr : s.ready = true)
    (h : runWord w s = .next t) : t.ready = true := by
  cases hd : decode w with
  | error e => rw [runWord_of_reject hd] at h; cases h; exact hr
  | ok i => rw [runWord_of_decode hd] at h; exact exec_keeps_ready hr h

/-! ### The forms of a step -/

/-- A step idles, answers a command word, takes a reset, or cuts a command word by a reset (R300, R305). -/
theorem step_cases {s t : State} (h : step s = .next t) :
    (s.inbox = [] ∧ t = s) ∨
      (∃ w rest, s.inbox = .command w :: rest ∧ runWord w { s with inbox := rest } = .next t) ∨
      (∃ rest, s.inbox = .reset :: rest ∧ t = assertReset { s with inbox := rest }) ∨
      ∃ w k rest u, s.inbox = .commandCutByReset w k :: rest ∧
        runWord w { s with inbox := rest } = .next u ∧ t = abandon k { s with inbox := rest } u := by
  match hi : s.inbox with
  | [] => rw [step_idle hi] at h; cases h; exact .inl ⟨rfl, rfl⟩
  | .command w :: rest => rw [step_command hi] at h; exact .inr (.inl ⟨w, rest, rfl, h⟩)
  | .reset :: rest => rw [step_reset hi] at h; cases h; exact .inr (.inr (.inl ⟨rest, rfl, rfl⟩))
  | .commandCutByReset w k :: rest =>
    obtain ⟨u, hu⟩ := runWord_next w { s with inbox := rest }
    rw [step_cut hi hu] at h
    cases h
    exact .inr (.inr (.inr ⟨w, k, rest, u, rfl, hu, rfl⟩))

@[simp] theorem abandon_ready (k : Nat) (s t : State) : (abandon k s t).ready = false := rfl

/-! ### Running a command from its word -/

theorem runSteps_succ {s t : State} (n : Nat) (h : step s = .next t) : runSteps (n + 1) s = runSteps n t := by
  rw [runSteps, h]

/-- A command whose word decodes to it is executed by the step that takes its word. -/
theorem step_encoded {s : State} {i : Instr} {rest : List HostEvent} (hd : decode (encode i) = .ok i)
    (h : s.inbox = .command (encode i) :: rest) : step s = exec i { s with inbox := rest } := by
  rw [step_command h, runWord_of_decode hd]

/-- The word of a `READ` whose size fits its field decodes to it (R85, R91). -/
theorem decode_encode_read {n : Nat} (h : n < 2 ^ 64) : decode (encode (.read n)) = .ok (.read n) := by
  rw [encode, decode_commandWord]
  simpa [decodeFields, decodeRead] using h

/-- Every legal position fits the operand of `SEEK` (R9, R91). -/
theorem fitsSigned_of_le_offsetMax {t : Nat} (h : t ≤ Config.offsetMax) : fitsSigned t = true := by
  simp only [Config.offsetMax] at h
  exact decide_eq_true (by omega)

/-- The word of a `SEEK.SET` whose operand fits its field decodes to it (R85, R91). -/
theorem decode_encode_seekSet {a : Int} (h : fitsSigned a = true) :
    decode (encode (.seekSet a)) = .ok (.seekSet a) := by
  have ha : (BitVec.ofInt 64 a).toInt = a := by
    have h := of_decide_eq_true h
    rw [BitVec.toInt_ofInt, Int.bmod_def]; omega
  rw [encode, decode_commandWord]
  simp [decodeFields, decodeSeek, ha]

end Sys2Proof.Machine
end

section
/-! The representation invariant `INV` under every step (spec rules R32, R176, R197). -/

namespace Sys2Proof.Machine

theorem inv_raise {s : State} (h : s.Inv) (st : Status) : (raise st s).Inv :=
  inv_respond h st 0 []

/-- A state that is not ready satisfies `INV`, which speaks of ready states only (R32). -/
theorem inv_of_not_ready {s : State} (h : s.ready = false) : s.Inv := by
  intro hr; rw [h] at hr; cases hr

/-- `INIT` establishes `INV`, or is refused (R38, R116). -/
theorem exec_init_keeps_inv {i : Instr} {s t : State} (h : s.Inv) (hi : isInit i = true)
    (he : exec i s = .next t) : t.Inv := by
  rcases exec_init_cases hi s with hx | ⟨k, m, u, hx, -⟩ <;> rw [hx] at he <;> cases he
  · exact inv_raise h _
  · exact fun _ => startLifetime_consistent k m u

/-- `READ` keeps `INV` (R176). -/
theorem readCommand_keeps_inv {s : State} (h : s.Inv) (size : Option Nat) : (readCommand size s).Inv := by
  rcases readCommand_cases size s with ⟨e, -, hx⟩ | ⟨-, hx⟩ | ⟨n, hr, h0, hn, -, hx⟩ <;> rw [hx]
  · exact inv_raise h e
  · exact inv_respond h _ _ _
  · obtain ⟨-, -, hc, -⟩ := deliver_spec (h hr) h0 hn
    exact fun _ => hc

/-- `DUMP` keeps `INV`, also when the sink fails (R176, R277). -/
theorem dumpCommand_keeps_inv {s : State} (h : s.Inv) (size : Option Nat) : (dumpCommand size s).Inv := by
  rcases dumpCommand_cases size s with ⟨e, -, hx⟩ | ⟨-, hx⟩ | ⟨n, hr, -, hn, -, hx⟩ <;> rw [hx]
  · exact inv_raise h e
  · exact inv_respond h _ _ _
  · rw [dumpLoop_start]
    obtain ⟨hc, -⟩ := dumpLoop_cases hn (chunkCount n) 0 s (h hr) (Nat.zero_add _) (by simp)
    exact fun _ => hc

/-- An accepted `SEEK` establishes `INV` whatever the state before (R197). -/
theorem seekTo_consistent {t : Nat} (s : State) (ht : t ≤ Config.offsetMax) :
    (respond .ok 0 [] (setOffset t (reposition t s))).Consistent :=
  (reposition_consistent s ht).congr (respond_sameRegisters ..)

/-- `SEEK` keeps `INV` (R197). -/
theorem seekCommand_keeps_inv {s : State} (h : s.Inv) (w : Whence) (a : Int) : (seekCommand w a s).Inv := by
  rcases seekCommand_cases w a s with ⟨e, -, hx⟩ | ⟨t, -, ht, -, hx⟩ <;> rw [hx]
  · exact inv_raise h e
  · exact fun _ => seekTo_consistent s ht

/-- Every command keeps `INV` (R32). -/
theorem exec_keeps_inv {i : Instr} {s t : State} (h : s.Inv) (he : exec i s = .next t) : t.Inv := by
  rcases exec_forms i s with hi | ⟨-, ⟨a, hx⟩ | ⟨a, hx⟩ | ⟨w, a, hx⟩ | rfl⟩
  · exact exec_init_keeps_inv h hi he
  · rw [hx] at he; cases he; exact readCommand_keeps_inv h a
  · rw [hx] at he; cases he; exact dumpCommand_keeps_inv h a
  · rw [hx] at he; cases he; exact seekCommand_keeps_inv h w a
  · rcases exec_tell_cases s with hx | hx <;> rw [hx] at he <;> cases he
    · exact inv_respond h _ _ _
    · exact inv_raise h _

/-- Every command word, reserved or not, keeps `INV` (R32, R273). -/
theorem runWord_keeps_inv {w : CommandWord} {s t : State} (h : s.Inv) (hw : runWord w s = .next t) : t.Inv := by
  cases hd : decode w with
  | error e => rw [runWord_of_reject hd] at hw; cases hw; exact inv_raise h _
  | ok i => rw [runWord_of_decode hd] at hw; exact exec_keeps_inv h hw

/-- Settles O42: a command keeps `INV` (`runWord_keeps_inv`), and after a reset the engine is not ready. -/
theorem stepKeepsTheInvariant : Obligations.StepKeepsTheInvariant := by
  intro s t h hs
  rcases step_cases hs with ⟨-, rfl⟩ | ⟨w, rest, -, hw⟩ | ⟨rest, -, rfl⟩ | ⟨w, k, rest, u, -, -, rfl⟩
  · exact h
  · exact runWord_keeps_inv (inv_inbox h rest) hw
  · exact inv_of_not_ready (assertReset_ready _)
  · exact inv_of_not_ready (abandon_ready ..)

/-- Settles O43: reset leaves `ready = 0`, and `INV` speaks of ready states. -/
theorem resetSatisfiesTheInvariant : Obligations.ResetSatisfiesTheInvariant :=
  ⟨inv_of_not_ready rfl, rfl⟩

/-- Settles O44: by conditions (a), (b) and (d) of `INV`, `16·ctr ≤ offset + rem < 2^63 + 8`. -/
theorem counterStaysBelowItsModulus : Obligations.CounterStaysBelowItsModulus := by
  intro s hr hi
  have hc := hi hr
  have hal := hc.aligned
  have hrange := hc.range
  have hlen := hc.len_le
  have hrem := hc.pos_add_rem
  simp only [State.nxt, Config.ctrInit] at hal
  simp only [Config.offsetMax] at hrange
  omega

end Sys2Proof.Machine
end

section
/-! Observational equality under every step (spec rule R33): what a command does depends on the ports and on
the key, the position and the bound, and on nothing else that a run can reach. -/

namespace Sys2Proof.Machine

theorem SamePorts.symm {s t : State} (h : SamePorts s t) : SamePorts t s :=
  ⟨h.inbox.symm, h.seedIn.symm, h.rndIn.symm, h.sinkIn.symm, h.out.symm, h.draws.symm⟩

/-! ### The operations on two engines with the same ports -/

theorem SamePorts.respond {s t : State} (h : SamePorts s t) (st : Status) (v : Nat) (d : List Byte) :
    SamePorts (respond st v d s) (respond st v d t) :=
  ⟨h.inbox, h.seedIn, h.rndIn, h.sinkIn, by simp [h.out], h.draws⟩

theorem SamePorts.takeSeed {s t : State} (h : SamePorts s t) (n : Nat) :
    (takeSeed n s).1 = (takeSeed n t).1 ∧ SamePorts (takeSeed n s).2 (takeSeed n t).2 :=
  ⟨by simp [Machine.takeSeed, h.seedIn, h.draws],
    ⟨h.inbox, by simp [h.seedIn], h.rndIn, h.sinkIn, h.out, by simp [h.seedIn, h.draws]⟩⟩

theorem SamePorts.takeRnd {s t : State} (h : SamePorts s t) :
    (takeRnd s).1 = (takeRnd t).1 ∧ SamePorts (takeRnd s).2 (takeRnd t).2 :=
  ⟨by simp [Machine.takeRnd, h.rndIn, h.draws],
    ⟨h.inbox, h.seedIn, by simp [h.rndIn], h.sinkIn, h.out, by simp [h.rndIn, h.draws]⟩⟩

theorem SamePorts.sinkWrite {s t : State} (h : SamePorts s t) (chunk : List Byte) :
    sinkAnswer s = sinkAnswer t ∧ SamePorts (sinkWrite chunk s).2 (sinkWrite chunk t).2 := by
  have ha : sinkAnswer s = sinkAnswer t := by rw [sinkAnswer, sinkAnswer, h.sinkIn, h.draws]
  exact ⟨ha, ⟨h.inbox, h.seedIn, h.rndIn, by simp [h.sinkIn], by simp [h.out, ha],
    by simp [h.sinkIn, h.draws]⟩⟩

/-- Reset draws every register from the count of free values, so only the ports matter (R37, R300). -/
theorem SamePorts.assertReset {s t : State} (h : SamePorts s t) : ObsEq (assertReset s) (assertReset t) where
  ready := rfl
  ports := ⟨h.inbox, h.seedIn, h.rndIn, h.sinkIn, h.out, by simp [h.draws]⟩
  triple := nofun
  invLeft := inv_of_not_ready rfl
  invRight := inv_of_not_ready rfl

/-- A cut command leaves what its ports say, and a reset engine (R300). -/
theorem SamePorts.abandon {s t u v : State} (h : SamePorts s t) (k : SamePorts u v) (n : Nat) :
    ObsEq (abandon n s u) (abandon n t v) := by
  have hd : dataSent n s u = dataSent n t v := by rw [dataSent, dataSent, h.out, k.out]
  exact SamePorts.assertReset ⟨h.inbox, by simp only [h.seedIn, k.seedIn], by simp only [h.rndIn, k.rndIn],
    by simp only [h.sinkIn, hd], by simp only [h.out, hd], k.draws⟩

/-- A new lifetime has every register from its key and bound, so only the ports matter (R38, R117). -/
theorem SamePorts.startLifetime {s t : State} (h : SamePorts s t) (k : Key) (m : Option Nat) :
    ObsEq (startLifetime k m s) (startLifetime k m t) where
  ready := rfl
  ports := ⟨h.inbox, h.seedIn, h.rndIn, h.sinkIn, by simp [h.out], h.draws⟩
  triple := fun _ => ⟨rfl, rfl, rfl, fun _ => rfl⟩
  invLeft := fun _ => startLifetime_consistent k m s
  invRight := fun _ => startLifetime_consistent k m t

/-! ### The operations on two observationally equal engines -/

namespace ObsEq

variable {s t : State}

/-- Two observationally equal engines stay so when each moves within its frame, to states that agree on the
ports and the position and satisfy `INV`. -/
theorem of_frames {s' t' : State} (h : ObsEq s t) (hs : SameBut s s') (ht : SameBut t t')
    (hp : SamePorts s' t') (ho : s.ready = true → s'.offset = t'.offset) (hi : s'.Inv) (ki : t'.Inv) :
    ObsEq s' t' where
  ready := hs.ready.symm.trans (h.ready.trans ht.ready)
  ports := hp
  triple := fun hr => by
    have hr : s.ready = true := hs.ready.trans hr
    have e := h.triple hr
    refine ⟨?_, ho hr, ?_, fun hv => ?_⟩
    · rw [← hs.key, ← ht.key, e.key]
    · rw [← hs.maxValid, ← ht.maxValid, e.maxValid]
    · rw [← hs.maxSize, ← ht.maxSize, e.maxSize (hs.maxValid.trans hv)]
  invLeft := hi
  invRight := ki

theorem setInbox (h : ObsEq s t) (l : List HostEvent) :
    ObsEq { s with inbox := l } { t with inbox := l } where
  ready := h.ready
  ports := ⟨rfl, h.ports.seedIn, h.ports.rndIn, h.ports.sinkIn, h.ports.out, h.ports.draws⟩
  triple := fun hr => ⟨(h.triple hr).key, (h.triple hr).offset, (h.triple hr).maxValid, (h.triple hr).maxSize⟩
  invLeft := inv_inbox h.invLeft l
  invRight := inv_inbox h.invRight l

theorem respond (h : ObsEq s t) (st : Status) (v : Nat) (d : List Byte) :
    ObsEq (respond st v d s) (respond st v d t) :=
  h.of_frames (respond_sameBut ..) (respond_sameBut ..) (h.ports.respond st v d)
    (fun hr => (h.triple hr).offset) (inv_respond h.invLeft _ _ _) (inv_respond h.invRight _ _ _)

theorem raise (h : ObsEq s t) (st : Status) : ObsEq (raise st s) (raise st t) :=
  h.respond st 0 []

/-! ### The checks look at the observable triple -/

theorem checkSize_eq (h : ObsEq s t) (size : Option Nat) : checkSize size s = checkSize size t := by
  cases hr : s.ready with
  | false => simp [checkSize, ← h.ready, hr]
  | true =>
    obtain ⟨-, ho, hv, hm⟩ := h.triple hr
    have hres : resolveSize size s = resolveSize size t := by
      cases hb : s.maxValid with
      | false => simp [resolveSize, ← hv, hb]
      | true => simp [resolveSize, bytesToBound, ← hv, hb, hm hb, ho]
    rw [checkSize, checkSize, hres, h.ready, ho]

theorem checkTarget_eq (h : ObsEq s t) (w : Whence) (a : Int) : checkTarget w a s = checkTarget w a t := by
  cases hr : s.ready with
  | false => simp [checkTarget, ← h.ready, hr]
  | true =>
    obtain ⟨-, ho, hv, hm⟩ := h.triple hr
    have hres : seekTarget w a s = seekTarget w a t := by
      cases w with
      | set => rfl
      | cur => simp [seekTarget, ho]
      | fromEnd =>
        cases hb : s.maxValid with
        | false => simp [seekTarget, ← hv, hb]
        | true => simp [seekTarget, ← hv, hb, hm hb]
    rw [checkTarget, checkTarget, hres, h.ready]

/-! ### The commands -/

/-- Both engines generate `S[offset .. offset + n)`, whatever their contexts and buffers hold (R33, R170). -/
theorem readCore (h : ObsEq s t) (hr : s.ready = true) {n : Nat}
    (hn : s.offset.toNat + n ≤ Config.offsetMax) :
    (readCore n s).1 = (readCore n t).1 ∧ ObsEq (readCore n s).2 (readCore n t).2 := by
  obtain ⟨hk, ho, -, -⟩ := h.triple hr
  obtain ⟨hb, hoff, hc⟩ := readCore_spec (h.invLeft hr) n hn
  obtain ⟨kb, koff, kc⟩ := readCore_spec (h.invRight (h.ready ▸ hr)) n (ho ▸ hn)
  obtain ⟨hf, hp⟩ := readCore_frame n s
  obtain ⟨kf, kp⟩ := readCore_frame n t
  refine ⟨by rw [hb, kb, hk, ho], h.of_frames hf kf ((hp.symm.trans h.ports).trans kp) (fun _ => ?_)
    (fun _ => hc) (fun _ => kc)⟩
  exact BitVec.eq_of_toNat_eq (by rw [hoff, koff, ho])

theorem sinkWrite (h : ObsEq s t) (chunk : List Byte) :
    ObsEq (sinkWrite chunk s).2 (sinkWrite chunk t).2 :=
  h.of_frames (sinkWrite_sameBut ..) (sinkWrite_sameBut ..) (h.ports.sinkWrite chunk).2
    (fun hr => (h.triple hr).offset) (fun hr => (h.invLeft hr).congr (sinkWrite_sameRegisters ..))
    (fun hr => (h.invRight hr).congr (sinkWrite_sameRegisters ..))

theorem deliver (h : ObsEq s t) (hr : s.ready = true) {n : Nat}
    (hn : s.offset.toNat + n ≤ Config.offsetMax) : ObsEq (deliver n s) (deliver n t) := by
  obtain ⟨hb, hx⟩ := h.readCore hr hn
  rw [Machine.deliver, Machine.deliver, hb]
  exact hx.respond ..

theorem readCommand (h : ObsEq s t) (size : Option Nat) :
    ObsEq (readCommand size s) (readCommand size t) := by
  rw [Machine.readCommand, Machine.readCommand, ← h.checkSize_eq size]
  cases hc : checkSize size s with
  | error e => exact h.raise e
  | ok n =>
    obtain ⟨hr, hn, -⟩ := checkSize_ok hc
    by_cases h0 : n = 0
    · simp only [if_pos h0]; exact h.respond ..
    · simp only [if_neg h0]; exact h.deliver hr (hn.resolve_left h0)

/-- The loop of `DUMP` offers both sinks the same chunks, and both answer alike (R213, R215). -/
theorem dumpLoop {k n written : Nat} (h : ObsEq s t) (hr : s.ready = true)
    (hn : s.offset.toNat + (n - written) ≤ Config.offsetMax) :
    ObsEq (dumpLoop k n written s) (dumpLoop k n written t) := by
  induction k generalizing written s t with
  | zero => exact h.respond ..
  | succ k ih =>
    have hc : s.offset.toNat + min Config.dumpChunk (n - written) ≤ Config.offsetMax := by omega
    obtain ⟨hb, hx⟩ := h.readCore hr hc
    obtain ⟨-, hoff, -⟩ := readCore_spec (h.invLeft hr) _ hc
    have hxr : (Machine.readCore (min Config.dumpChunk (n - written)) s).2.ready = true :=
      (readCore_frame _ s).1.ready.symm.trans hr
    rw [Machine.dumpLoop, Machine.dumpLoop, ← hb]
    generalize min Config.dumpChunk (n - written) = c at *
    generalize Machine.readCore c s = x at *
    generalize (Machine.readCore c t).2 = y at *
    have hy := hx.sinkWrite x.1
    have ha : (Machine.sinkWrite x.1 y).1 = (Machine.sinkWrite x.1 x.2).1 :=
      (hx.ports.sinkWrite x.1).1.symm
    simp only [ha]
    cases (Machine.sinkWrite x.1 x.2).1 with
    | fail => exact hy.respond ..
    | ok => exact ih hy hxr (by rw [sinkWrite_offset, hoff]; omega)

theorem dumpCommand (h : ObsEq s t) (size : Option Nat) :
    ObsEq (dumpCommand size s) (dumpCommand size t) := by
  rw [Machine.dumpCommand, Machine.dumpCommand, ← h.checkSize_eq size]
  cases hc : checkSize size s with
  | error e => exact h.raise e
  | ok n =>
    obtain ⟨hr, hn, -⟩ := checkSize_ok hc
    rcases hn with rfl | hn
    · exact h.respond ..
    · exact h.dumpLoop hr hn

/-- An accepted `SEEK` rebuilds context, buffer and position from the target (R190, R195). -/
theorem seekTo (h : ObsEq s t) {p : Nat} (hp : p ≤ Config.offsetMax) :
    ObsEq (setOffset p (reposition p s)) (setOffset p (reposition p t)) := by
  obtain ⟨hf, hq, -⟩ := reposition_frame p s
  obtain ⟨kf, kq, -⟩ := reposition_frame p t
  have hp' := (hq.symm.trans h.ports).trans kq
  exact h.of_frames (hf.trans (setOffset_sameBut ..)) (kf.trans (setOffset_sameBut ..))
    ⟨hp'.inbox, hp'.seedIn, hp'.rndIn, hp'.sinkIn, hp'.out, hp'.draws⟩ (fun _ => rfl) (fun _ => reposition_consistent s hp)
    (fun _ => reposition_consistent t hp)

theorem seekCommand (h : ObsEq s t) (w : Whence) (a : Int) :
    ObsEq (seekCommand w a s) (seekCommand w a t) := by
  rw [Machine.seekCommand, Machine.seekCommand, ← h.checkTarget_eq w a]
  cases hc : checkTarget w a s with
  | error e => exact h.raise e
  | ok p =>
    obtain ⟨-, hp, -⟩ := checkTarget_ok hc
    exact (h.seekTo hp).respond ..

theorem initFromSeed (h : ObsEq s t) (len : Nat) (m : Option Nat) :
    ObsEq (initFromSeed len m s) (initFromSeed len m t) := by
  obtain ⟨hb, hp⟩ := h.ports.takeSeed len
  rw [Machine.initFromSeed, Machine.initFromSeed, hb]
  split
  · exact h.raise _
  · exact hp.startLifetime _ m

theorem initFromRnd (h : ObsEq s t) (m : Option Nat) : ObsEq (initFromRnd m s) (initFromRnd m t) := by
  obtain ⟨hb, hp⟩ := h.ports.takeRnd
  rw [Machine.initFromRnd, Machine.initFromRnd, hb]
  exact hp.startLifetime _ m

theorem tell (h : ObsEq s t) : ∃ s' t', exec .tell s = .next s' ∧ exec .tell t = .next t' ∧ ObsEq s' t' := by
  cases hr : s.ready with
  | true =>
    refine ⟨_, _, exec_tell_of_ready hr, exec_tell_of_ready (h.ready ▸ hr), ?_⟩
    rw [(h.triple hr).offset]; exact h.respond ..
  | false =>
    exact ⟨_, _, exec_tell_of_not_ready hr, exec_tell_of_not_ready (h.ready ▸ hr), h.raise _⟩

/-! ### Commands, words, steps -/

theorem exec (h : ObsEq s t) (i : Instr) :
    ∃ s' t', exec i s = .next s' ∧ exec i t = .next t' ∧ ObsEq s' t' := by
  cases i with
  | initRnd => exact ⟨_, _, rfl, rfl, h.initFromRnd none⟩
  | initSeed len => exact ⟨_, _, rfl, rfl, h.initFromSeed len none⟩
  | initRndMax m => exact ⟨_, _, rfl, rfl, h.initFromRnd (some m)⟩
  | initSeedMax len m => exact ⟨_, _, rfl, rfl, h.initFromSeed len (some m)⟩
  | readAll => exact ⟨_, _, rfl, rfl, h.readCommand none⟩
  | read a => exact ⟨_, _, rfl, rfl, h.readCommand (some a)⟩
  | seekSet a => exact ⟨_, _, rfl, rfl, h.seekCommand .set a⟩
  | seekCur a => exact ⟨_, _, rfl, rfl, h.seekCommand .cur a⟩
  | seekEnd a => exact ⟨_, _, rfl, rfl, h.seekCommand .fromEnd a⟩
  | tell => exact h.tell
  | dumpAll => exact ⟨_, _, rfl, rfl, h.dumpCommand none⟩
  | dump a => exact ⟨_, _, rfl, rfl, h.dumpCommand (some a)⟩

theorem runWord (h : ObsEq s t) (w : CommandWord) :
    ∃ s' t', runWord w s = .next s' ∧ runWord w t = .next t' ∧ ObsEq s' t' := by
  cases hd : decode w with
  | error e => exact ⟨_, _, runWord_of_reject hd s, runWord_of_reject hd t, h.raise _⟩
  | ok i => rw [runWord_of_decode hd, runWord_of_decode hd]; exact h.exec i

theorem step (h : ObsEq s t) : ∃ s' t', step s = .next s' ∧ step t = .next t' ∧ ObsEq s' t' := by
  have ki : ∀ {l}, s.inbox = l → t.inbox = l := h.ports.inbox.symm.trans
  match hi : s.inbox with
  | [] => exact ⟨s, t, step_idle hi, step_idle (ki hi), h⟩
  | .command w :: rest =>
    rw [step_command hi, step_command (ki hi)]
    exact (h.setInbox rest).runWord w
  | .reset :: rest =>
    exact ⟨_, _, step_reset hi, step_reset (ki hi), (h.setInbox rest).ports.assertReset⟩
  | .commandCutByReset w k :: rest =>
    have h := h.setInbox rest
    obtain ⟨u, v, hu, hv, huv⟩ := h.runWord w
    exact ⟨_, _, step_cut hi hu, step_cut (ki hi) hv, h.ports.abandon huv.ports k⟩

end ObsEq

/-- Settles O45: the step lemma `ObsEq.step`, whose commands are taken one operation at a time. -/
theorem hiddenRegistersAreUnobservable : Obligations.HiddenRegistersAreUnobservable := by
  intro s t s' h hs
  obtain ⟨s'', t', hs'', ht, hst⟩ := h.step
  rw [hs] at hs''
  cases hs''
  exact ⟨t', ht, hst⟩

end Sys2Proof.Machine
end

section
/-! What each kind of command may write (spec rules R27, R37, R39) and what `INIT` leaves (R38, R113, R114). -/

namespace Sys2Proof.Machine

/-- Settles O38: `exec_frame`; the stream space is a function of the key. -/
theorem onlyInitWritesKeyAndBound : Obligations.OnlyInitWritesKeyAndBound := by
  intro i s t hi he
  have hf := exec_frame hi he
  exact ⟨hf, fun a n => by rw [hf.key]⟩

/-- Settles O39: of the four forms of a step, idling and answering a word keep `ready`. -/
theorem onlyResetClearsReady : Obligations.OnlyResetClearsReady := by
  intro s t hr hs ht
  rcases step_cases hs with ⟨-, rfl⟩ | ⟨w, rest, -, hw⟩ | ⟨rest, hi, -⟩ | ⟨w, k, rest, u, hi, -⟩
  · rw [hr] at ht; cases ht
  · rw [runWord_keeps_ready (s := { s with inbox := rest }) hr hw] at ht; cases ht
  · exact ⟨rest, .inl hi⟩
  · exact ⟨rest, .inr ⟨w, k, hi⟩⟩

/-- Settles O9, by the form of a reset step: `assertReset` clears `ready` and moves nothing on a port. -/
theorem resetClearsReady : Obligations.ResetClearsReady := by
  intro s rest h
  exact ⟨_, step_reset h, rfl, rfl, rfl, rfl, rfl, rfl⟩

/-! ### The input ports -/

@[simp] theorem portBytes_length (free : Nat → Byte) (placed : List Byte) (draws n : Nat) :
    (portBytes free placed draws n).length = n := by
  simp only [portBytes, List.length_append, List.length_take, List.length_map, List.length_range]
  omega

/-- The bytes that the host has placed on the port come first (log entry 5). -/
theorem portBytes_take (free : Nat → Byte) (placed : List Byte) (draws n : Nat) :
    (portBytes free placed draws n).take placed.length = placed.take n := by
  rcases Nat.le_total placed.length n with h | h
  · rw [portBytes, List.take_of_length_le h, List.take_left]
  · rw [portBytes, Nat.sub_eq_zero_of_le h, List.range_zero, List.map_nil, List.append_nil,
      List.take_of_length_le (by simp [h])]

/-- The key of 32 bytes has these bytes, in order (R114). -/
theorem be_keyOfBytes {r : List Byte} (h : r.length = 32) :
    be 32 (BitVec.ofNat 256 (ofBe r)).toNat = r := by
  have hlt := ofBe_lt r
  have hbe := be_ofBe r
  rw [h] at hlt hbe
  rw [BitVec.toNat_ofNat, Nat.mod_eq_of_lt (by omega), hbe]

/-! ### `INIT` -/

/-- The whole state that an accepted `INIT` leaves (R38, R115). -/
theorem startLifetime_eq (k : Key) (m : Option Nat) (s : State) :
    startLifetime k m s = { s with
      ready := true, key := k, ctr := 0, half := false, buf := 0, bufLen := 0, bufPos := 0, offset := 0,
      maxValid := m.isSome, maxSize := BitVec.ofNat 64 (m.getD 0), out := s.out ++ [.resp ⟨.ok, 0⟩] } := rfl

/-- A seed that SHA-256 can hash is taken from `seed_in` and hashed (R113, R115). -/
theorem initFromSeed_of_le {len : Nat} (h : len ≤ Config.seedLenMax) (m : Option Nat) (s : State) :
    initFromSeed len m s = startLifetime (sha256 (takeSeed len s).1) m (takeSeed len s).2 :=
  if_neg (by omega)

/-- Settles O14: the seed is what `seed_in` delivers, and `startLifetime_eq` gives the registers. -/
theorem initWithSeedSetsEveryRegister : Obligations.InitWithSeedSetsEveryRegister := by
  intro s seedLen maxSize hl _
  refine ⟨(takeSeed seedLen s).1, portBytes_length .., portBytes_take .., ?_, ?_⟩
  · rw [exec, execInitSeed, initFromSeed_of_le hl, startLifetime_eq]; rfl
  · rw [exec, execInitSeedMax, initFromSeed_of_le hl, startLifetime_eq]; rfl

/-- Settles O15: the key is what `rnd_in` delivers (`be_keyOfBytes`), and `startLifetime_eq` gives the
registers. -/
theorem initWithoutSeedTakesTheKeyFromRnd : Obligations.InitWithoutSeedTakesTheKeyFromRnd := by
  intro s maxSize _
  refine ⟨(takeRnd s).1, _, portBytes_length .., portBytes_take .., be_keyOfBytes (portBytes_length ..),
    ?_, ?_⟩
  · rw [exec, execInitRnd, initFromRnd, startLifetime_eq]; rfl
  · rw [exec, execInitRndMax, initFromRnd, startLifetime_eq]; rfl

end Sys2Proof.Machine
end

section
/-! The position (spec rules R24, R26, R277): `READ` and `DUMP` move it by the bytes they generate. -/

namespace Sys2Proof.Machine

/-- How many bytes a list of transfers carries on `dout` or offers to the sink (R26). -/
def generatedBytes (evs : List PortEvent) : Nat :=
  (doutBytes evs).length + offeredBytes (sinkChunks evs)

@[simp] theorem generatedBytes_nil : generatedBytes [] = 0 := rfl

@[simp] theorem generatedBytes_dout (b : List Byte) (evs : List PortEvent) :
    generatedBytes (.dout b :: evs) = b.length + generatedBytes evs := by
  simp [generatedBytes, doutBytes, sinkChunks, Nat.add_assoc]

@[simp] theorem generatedBytes_sinkWrite (c : List Byte) (a : SinkAnswer) (evs : List PortEvent) :
    generatedBytes (.sinkWrite c a :: evs) = c.length + generatedBytes evs := by
  simp only [generatedBytes, doutBytes, sinkChunks, offeredBytes]; omega

@[simp] theorem generatedBytes_resp (r : Response) (evs : List PortEvent) :
    generatedBytes (.resp r :: evs) = generatedBytes evs := rfl

@[simp] theorem generatedBytes_append (xs ys : List PortEvent) :
    generatedBytes (xs ++ ys) = generatedBytes xs + generatedBytes ys := by
  induction xs with
  | nil => simp
  | cons e xs ih => cases e <;> simp [ih, Nat.add_assoc]

/-- What has left the engine since `s`, when the list of transfers says so. -/
theorem newEvents_of_out {s t : State} {evs : List PortEvent} (h : t.out = s.out ++ evs) :
    newEvents s t = evs := by
  rw [newEvents, h, List.drop_left]

/-- `m` accepted chunks from chunk `j` on carry the bytes up to the start of chunk `j + m`, or to the end of
the `DUMP` (R213). -/
theorem generatedBytes_acceptedChunks (key : Key) (a n j m : Nat) :
    min n (Config.dumpChunk * j) + generatedBytes (acceptedChunks key a n j m) =
      min n (Config.dumpChunk * (j + m)) := by
  induction m generalizing j with
  | zero => rfl
  | succ m ih =>
    have := ih (j + 1)
    rw [acceptedChunks_succ, generatedBytes_sinkWrite, dumpChunkBytes, memRead_length,
      show j + (m + 1) = j + 1 + m by omega]
    simp only [Config.dumpChunk] at *
    omega

/-- The first `m` chunks carry the first `DUMP_CHUNK·m` bytes, or all (R213). -/
theorem generatedBytes_firstChunks (key : Key) (a n m : Nat) :
    generatedBytes (acceptedChunks key a n 0 m) = min n (Config.dumpChunk * m) := by
  simpa using generatedBytes_acceptedChunks key a n 0 m

/-- The chunks of a `DUMP` of `n` bytes cover them (R306). -/
theorem min_dumpChunk_chunkCount (n : Nat) : min n (Config.dumpChunk * chunkCount n) = n := by
  simp only [chunkCount, Config.dumpChunk]; omega

/-- The position has moved by the bytes generated since `s`. -/
def MovedByGenerated (s t : State) : Prop :=
  t.offset.toNat = s.offset.toNat + generatedBytes (newEvents s t)

/-- An answer without data leaves the position. -/
theorem movedByGenerated_respond (st : Status) (v : Nat) (s : State) :
    MovedByGenerated s (respond st v [] s) := by
  rw [MovedByGenerated, newEvents_of_out (respond_out ..)]; rfl

theorem movedByGenerated_raise (st : Status) (s : State) : MovedByGenerated s (raise st s) :=
  movedByGenerated_respond st 0 s

/-- `READ` moves the position by the bytes on `dout` (R24). -/
theorem readCommand_movedByGenerated {s : State} (h : s.Consistent) (size : Option Nat) :
    MovedByGenerated s (readCommand size s) := by
  rcases readCommand_cases size s with ⟨e, -, hx⟩ | ⟨-, hx⟩ | ⟨n, -, h0, hn, -, hx⟩ <;> rw [hx]
  · exact movedByGenerated_raise e s
  · exact movedByGenerated_respond ..
  · obtain ⟨hout, hoff, -⟩ := deliver_spec h h0 hn
    rw [MovedByGenerated, newEvents_of_out hout, hoff]
    simp

/-- `DUMP` moves the position by the bytes offered to the sink, the failed chunk's among them (R24, R277). -/
theorem dumpCommand_movedByGenerated {s : State} (h : s.Consistent) (size : Option Nat) :
    MovedByGenerated s (dumpCommand size s) := by
  rcases dumpCommand_cases size s with ⟨e, -, hx⟩ | ⟨-, hx⟩ | ⟨n, -, -, hn, -, hx⟩ <;> rw [hx]
  · exact movedByGenerated_raise e s
  · exact movedByGenerated_respond ..
  · rw [dumpLoop_start]
    obtain ⟨-, -, hd | ⟨k, -, hd⟩⟩ :=
      dumpLoop_cases hn (chunkCount n) 0 s h (Nat.zero_add _) (by simp)
    · rw [MovedByGenerated, newEvents_of_out (hd.out.trans (List.append_assoc ..)), hd.offset,
        generatedBytes_append, generatedBytes_firstChunks, min_dumpChunk_chunkCount]
      rfl
    · rw [MovedByGenerated, newEvents_of_out (hd.out.trans (List.append_assoc ..)), hd.offset,
        generatedBytes_append, generatedBytes_firstChunks, generatedBytes_sinkWrite, generatedBytes_resp,
        generatedBytes_nil, dumpChunkBytes, memRead_length]
      simp only [Config.dumpChunk]
      omega

/-- Settles O40, command by command. -/
theorem positionMovesByTheBytesGenerated : Obligations.PositionMovesByTheBytesGenerated := by
  intro i s t hi hr hform he
  have hc := hi hr
  suffices MovedByGenerated s t by rw [Nat.add_assoc]; exact this
  rcases hform with rfl | rfl | ⟨a, rfl | rfl⟩ <;> cases he
  · exact readCommand_movedByGenerated hc none
  · exact dumpCommand_movedByGenerated hc none
  · exact readCommand_movedByGenerated hc (some a)
  · exact dumpCommand_movedByGenerated hc (some a)

end Sys2Proof.Machine
end

section
/-! `READAT` from end to end (spec rules R92, R190): the host's call, two steps, the bytes. -/

namespace Sys2Proof.Machine

/-- An accepted `SEEK` puts the position on its target (R195). -/
theorem seekTo_offset {t : Nat} (s : State) (ht : t ≤ Config.offsetMax) :
    (respond .ok 0 [] (setOffset t (reposition t s))).offset.toNat = t := by
  simp only [Config.offsetMax] at ht
  rw [respond_offset, setOffset_offset, BitVec.toNat_ofNat]
  exact Nat.mod_eq_of_lt (by omega)

/-- An accepted `SEEK` sends nothing but its answer (R195). -/
theorem seekTo_out (t : Nat) (s : State) :
    (respond .ok 0 [] (setOffset t (reposition t s))).out = s.out ++ [.resp ⟨.ok, 0⟩] := by
  rw [respond_out, setOffset_out, ← (reposition_frame t s).2.1.out]; rfl

/-- The step that takes an accepted `SEEK.SET`, from any ready state (R195, R197). -/
theorem step_seekSet {s : State} {t : Nat} {rest : List HostEvent} (hr : s.ready = true)
    (hi : s.inbox = .command (encode (.seekSet t)) :: rest) (ht : t ≤ Config.offsetMax) :
    ∃ u, step s = .next u ∧ u.inbox = rest ∧ u.offset.toNat = t ∧ u.Consistent ∧
      SameBut { s with inbox := rest } u ∧ u.out = s.out ++ [.resp ⟨.ok, 0⟩] := by
  have hf := seekTo_frame t { s with inbox := rest }
  have hd := decode_encode_seekSet (fitsSigned_of_le_offsetMax ht)
  exact ⟨_, (step_encoded hd hi).trans (exec_seek_of hr (.inl rfl) ht),
    hf.inbox.symm, seekTo_offset _ ht, seekTo_consistent _ ht, hf, seekTo_out ..⟩

/-- The step that takes a `READ` whose size resolves to `n > 0`, from a consistent state (R170, R171). -/
theorem step_read {s : State} {a n : Nat} {rest : List HostEvent} (hr : s.ready = true) (hc : s.Consistent)
    (hi : s.inbox = .command (encode (.read a)) :: rest) (ha : a < 2 ^ 64)
    (hn : (n : Int) = if s.maxValid then min (a : Int) (s.maxSize.toNat - s.offset.toNat) else a)
    (h0 : 0 < n) (hm : s.offset.toNat + n ≤ Config.offsetMax) :
    ∃ u, step s = .next u ∧ u.inbox = rest ∧ u.offset.toNat = s.offset.toNat + n ∧ u.Inv ∧
      u.out = s.out ++ [.dout (memRead s.key s.offset.toNat n), .resp ⟨.ok, BitVec.ofNat 64 n⟩] := by
  have hc' : ({ s with inbox := rest } : State).Consistent :=
    hc.congr ⟨rfl, rfl, rfl, rfl, rfl, rfl, rfl, rfl, rfl, rfl⟩
  obtain ⟨hout, hoff, hcons, hf, -⟩ := deliver_spec hc' h0 hm
  exact ⟨_, (step_encoded (decode_encode_read ha) hi).trans
      (exec_read_of (s := { s with inbox := rest }) hr (.inl ⟨a, rfl, hn⟩) h0 hm),
    hf.inbox.symm, hoff, fun _ => hcons, hout⟩

/-- With nothing else on `cmd`, what the host does next is to send the issue's commands (R80). -/
theorem present_inbox {s : State} (h : s.inbox = []) (is : Issue) :
    (s.present is).inbox = is.commands.map fun i => .command (encode i) := by
  simp only [State.present, h, List.nil_append]

/-- Settles O30: the host issues two commands; the `SEEK` establishes `INV` at position `t`
(`step_seekSet`), and the `READ` delivers from there (`step_read`). -/
theorem readAtDeliversTheBytesAtThePosition : Obligations.ReadAtDeliversTheBytesAtThePosition := by
  intro s t a n hr hi ha hn h0 hm
  have ht : t ≤ Config.offsetMax := by omega
  obtain ⟨u, hstep, huin, huoff, hucons, huf, huout⟩ :=
    step_seekSet (s := s.present ⟨[.seekSet t, .read a], []⟩) hr (present_inbox hi _) ht
  have hur : u.ready = true := huf.ready.symm.trans hr
  have hun : (n : Int) = if u.maxValid then min (a : Int) (u.maxSize.toNat - u.offset.toNat) else a := by
    rw [← huf.maxValid, ← huf.maxSize, huoff]; exact hn
  obtain ⟨v, hstep', hvin, hvoff, hvinv, hvout⟩ :=
    step_read hur hucons huin ha hun h0 (by rw [huoff]; exact hm)
  refine ⟨_, v, issue_readAt (fitsSigned_of_le_offsetMax ht) (decide_eq_true ha), ?_, hvin,
    by rw [hvoff, huoff], hvinv, ?_⟩
  · rw [runSteps_succ 1 hstep, runSteps_succ 0 hstep']; rfl
  · rw [hvout, huout, huoff, ← huf.key, List.append_assoc]; rfl

end Sys2Proof.Machine
end

section
/-! What crosses the ports for one command word: its data, then one response with the `value` of R88 (spec
rules R73, R88, R276, R305). -/

namespace Sys2Proof.Machine

/-- Settles O6: the step takes the word (`step_command`), and the word runs its command. -/
theorem stepExecutesTheDecodedCommand : Obligations.StepExecutesTheDecodedCommand := by
  intro s w rest i hi hd _
  rw [step_command hi, runWord_of_decode hd]

/-! ### The transfers of a list, taken apart -/

@[simp] theorem doutBytes_append (xs ys : List PortEvent) :
    doutBytes (xs ++ ys) = doutBytes xs ++ doutBytes ys := by
  induction xs with
  | nil => rfl
  | cons e xs ih => cases e <;> simp [doutBytes, ih]

@[simp] theorem sinkChunks_append (xs ys : List PortEvent) :
    sinkChunks (xs ++ ys) = sinkChunks xs ++ sinkChunks ys := by
  induction xs with
  | nil => rfl
  | cons e xs ih => cases e <;> simp [sinkChunks, ih]

@[simp] theorem acceptedBytes_append (xs ys : List (List Byte × SinkAnswer)) :
    acceptedBytes (xs ++ ys) = acceptedBytes xs + acceptedBytes ys := by
  induction xs with
  | nil => simp [acceptedBytes]
  | cons x xs ih => obtain ⟨c, _ | _⟩ := x <;> simp [acceptedBytes, ih, Nat.add_assoc]

theorem isResp_acceptedChunks {key : Key} {a n j m : Nat} {e : PortEvent}
    (h : e ∈ acceptedChunks key a n j m) : e.isResp = false := by
  obtain ⟨i, -, rfl⟩ := List.mem_map.1 h
  rfl

@[simp] theorem doutBytes_acceptedChunks (key : Key) (a n j m : Nat) :
    doutBytes (acceptedChunks key a n j m) = [] := by
  induction m generalizing j with
  | zero => rfl
  | succ m ih => rw [acceptedChunks_succ, doutBytes, ih]

/-- The sink took every byte of the chunks it accepted (R212). -/
theorem acceptedBytes_acceptedChunks (key : Key) (a n j m : Nat) :
    acceptedBytes (sinkChunks (acceptedChunks key a n j m)) = generatedBytes (acceptedChunks key a n j m) := by
  induction m generalizing j with
  | zero => rfl
  | succ m ih => rw [acceptedChunks_succ, sinkChunks, acceptedBytes, ih, generatedBytes_sinkWrite]

/-- The first `m` chunks, all accepted, carry the first `DUMP_CHUNK·m` bytes, or all (R213). -/
theorem acceptedBytes_firstChunks (key : Key) (a n m : Nat) :
    acceptedBytes (sinkChunks (acceptedChunks key a n 0 m)) = min n (Config.dumpChunk * m) := by
  rw [acceptedBytes_acceptedChunks, generatedBytes_firstChunks]

/-! ### One answer, with its value -/

/-- The engine went from `s` to `t` by sending data transfers and then one response. A refusal has value 0 and
no data; for any other status the value and the data are as `V` says (R73, R88, R276). -/
def AnsweredWith (V : Word64 → List PortEvent → Prop) (s t : State) : Prop :=
  ∃ data r, t.out = s.out ++ data ++ [.resp r] ∧ (∀ e ∈ data, e.isResp = false) ∧
    (r.status.isRefusal = true → r.value = 0 ∧ data = []) ∧ (r.status.isRefusal = false → V r.value data)

/-- The value is 0 and nothing left the engine before it: `INIT` and `SEEK` (R88). -/
def ReportsZero (v : Word64) (data : List PortEvent) : Prop :=
  v = 0 ∧ data = []

/-- The value is the position, and nothing left the engine before it: `TELL` (R88, R210). -/
def ReportsPosition (pos v : Word64) (data : List PortEvent) : Prop :=
  v = pos ∧ data = []

/-- The value counts the bytes on `dout`, and nothing went to the sink: `READ` (R88). -/
def ReportsDelivered (v : Word64) (data : List PortEvent) : Prop :=
  v.toNat = (doutBytes data).length ∧ sinkChunks data = []

/-- The value counts the bytes the sink accepted, and nothing went to `dout`: `DUMP` (R88). -/
def ReportsAccepted (v : Word64) (data : List PortEvent) : Prop :=
  v.toNat = acceptedBytes (sinkChunks data) ∧ doutBytes data = []

/-- What the command reports when it is not refused, from position `pos` (R88). -/
def Reports (pos : Word64) : Instr → Word64 → List PortEvent → Prop
  | .initRnd | .initSeed _ | .initRndMax _ | .initSeedMax _ _ => ReportsZero
  | .readAll | .read _ => ReportsDelivered
  | .seekSet _ | .seekCur _ | .seekEnd _ => ReportsZero
  | .tell => ReportsPosition pos
  | .dumpAll | .dump _ => ReportsAccepted

theorem reports_of_isInit {pos v : Word64} {i : Instr} {data : List PortEvent} (hi : isInit i = true)
    (h : Reports pos i v data) : ReportsZero v data := by
  cases i with
  | initRnd | initSeed | initRndMax | initSeedMax => exact h
  | readAll | read | seekSet | seekCur | seekEnd | tell | dumpAll | dump => cases hi

section
variable {V : Word64 → List PortEvent → Prop} {s t : State}

/-- A refusal is an answer, whatever the command would have reported (R276). -/
theorem answeredWith_raise {st : Status} (h : st.isRefusal = true) : AnsweredWith V s (raise st s) :=
  ⟨[], ⟨st, 0⟩, by simp, by simp, fun _ => ⟨rfl, rfl⟩, fun h' => absurd (h.symm.trans h') (by decide)⟩

/-- Data and a response that is no refusal are an answer, when the value is right. -/
theorem answeredWith_of_out {data : List PortEvent} {r : Response} (h : t.out = s.out ++ data ++ [.resp r])
    (hd : ∀ e ∈ data, e.isResp = false) (hr : r.status.isRefusal = false) (hv : V r.value data) :
    AnsweredWith V s t :=
  ⟨data, r, h, hd, fun h' => absurd (h'.symm.trans hr) (by decide), fun _ => hv⟩

/-- `OK` without data is an answer, when the value is right. -/
theorem answeredWith_ok {v : Word64} (h : t.out = s.out ++ [.resp ⟨.ok, v⟩]) (hv : V v []) :
    AnsweredWith V s t :=
  answeredWith_of_out (data := []) (by rw [h, List.append_nil]) (by simp) rfl hv

end

/-! ### Command by command -/

/-- The size of a read that ends at a legal position fits the `value` field (R88, R173). -/
theorem toNat_ofNat_of_le_offsetMax {a n : Nat} (h : a + n ≤ Config.offsetMax) :
    (BitVec.ofNat 64 n).toNat = n := by
  simp only [Config.offsetMax] at h
  rw [BitVec.toNat_ofNat]
  exact Nat.mod_eq_of_lt (by omega)

/-- `INIT` answers 0 (R115). -/
theorem exec_init_answeredWith {i : Instr} {s t : State} (hi : isInit i = true) (he : exec i s = .next t) :
    AnsweredWith ReportsZero s t := by
  rcases exec_init_cases hi s with hx | ⟨k, m, u, hx, -, -, -, hu⟩ <;> rw [hx] at he <;> cases he
  · exact answeredWith_raise rfl
  · exact answeredWith_ok (by rw [startLifetime_out, hu]) ⟨rfl, rfl⟩

/-- `READ` answers the number of bytes on `dout` (R172). -/
theorem readCommand_answeredWith {s : State} (h : s.Inv) (size : Option Nat) :
    AnsweredWith ReportsDelivered s (readCommand size s) := by
  rcases readCommand_cases size s with ⟨e, he, hx⟩ | ⟨-, hx⟩ | ⟨n, hr, h0, hn, -, hx⟩ <;> rw [hx]
  · exact answeredWith_raise he
  · exact answeredWith_ok rfl ⟨rfl, rfl⟩
  · obtain ⟨hout, -⟩ := deliver_spec (h hr) h0 hn
    refine answeredWith_of_out (hout.trans (List.append_assoc _ [_] [_]).symm)
      (by simp [PortEvent.isResp]) rfl ⟨?_, rfl⟩
    rw [toNat_ofNat_of_le_offsetMax hn, doutBytes, doutBytes, List.append_nil, memRead_length]

/-- `SEEK` answers 0 (R195). -/
theorem seekCommand_answeredWith (w : Whence) (a : Int) (s : State) :
    AnsweredWith ReportsZero s (seekCommand w a s) := by
  rcases seekCommand_cases w a s with ⟨e, he, hx⟩ | ⟨t, -, -, -, hx⟩ <;> rw [hx]
  · exact answeredWith_raise he
  · exact answeredWith_ok (seekTo_out t s) ⟨rfl, rfl⟩

/-- `TELL` answers the position (R210). -/
theorem exec_tell_answeredWith {s t : State} (he : exec .tell s = .next t) :
    AnsweredWith (ReportsPosition s.offset) s t := by
  rcases exec_tell_cases s with hx | hx <;> rw [hx] at he <;> cases he
  · exact answeredWith_ok rfl ⟨BitVec.ofNat_toNat .., rfl⟩
  · exact answeredWith_raise rfl

/-- A loop of `DUMP` that ran to its end reports all `n` bytes, which the sink accepted (R213). -/
theorem DumpDone.answeredWith {a n : Nat} {s t : State} (ha : a + n ≤ Config.offsetMax)
    (h : DumpDone a n 0 (chunkCount n) s t) : AnsweredWith ReportsAccepted s t := by
  refine answeredWith_of_out h.out (fun _ => isResp_acceptedChunks) rfl ⟨?_, doutBytes_acceptedChunks ..⟩
  rw [toNat_ofNat_of_le_offsetMax ha, acceptedBytes_firstChunks, min_dumpChunk_chunkCount]

/-- A loop of `DUMP` that stopped at chunk `k` reports the `k` chunks before it, and not the failed one
(R215). -/
theorem DumpFailed.answeredWith {a n k : Nat} {s t : State} (ha : a + n ≤ Config.offsetMax)
    (hk : k < chunkCount n) (h : DumpFailed a n 0 k s t) : AnsweredWith ReportsAccepted s t := by
  have hkn : Config.dumpChunk * k ≤ n := by
    simp only [chunkCount, Config.dumpChunk] at hk ⊢; omega
  have hout := h.out
  rw [Nat.zero_add] at hout
  refine answeredWith_of_out
    (data := acceptedChunks s.key a n 0 k ++ [.sinkWrite (dumpChunkBytes s.key a n k) .fail])
    (by simpa using hout) ?_ rfl ⟨?_, ?_⟩
  · intro e he
    rcases List.mem_append.1 he with he | he
    · exact isResp_acceptedChunks he
    · rw [List.mem_singleton.1 he]; rfl
  · rw [toNat_ofNat_of_le_offsetMax (Nat.le_trans (Nat.add_le_add_left hkn a) ha), sinkChunks_append,
      acceptedBytes_append, acceptedBytes_firstChunks, Nat.min_eq_right hkn]
    rfl
  · rw [doutBytes_append, doutBytes_acceptedChunks]; rfl

/-- `DUMP` answers the number of bytes the sink accepted (R213, R215). -/
theorem dumpCommand_answeredWith {s : State} (h : s.Inv) (size : Option Nat) :
    AnsweredWith ReportsAccepted s (dumpCommand size s) := by
  rcases dumpCommand_cases size s with ⟨e, he, hx⟩ | ⟨-, hx⟩ | ⟨n, hr, -, hn, -, hx⟩ <;> rw [hx]
  · exact answeredWith_raise he
  · exact answeredWith_ok rfl ⟨rfl, rfl⟩
  · rw [dumpLoop_start]
    obtain ⟨-, -, hd | ⟨k, hk, hd⟩⟩ :=
      dumpLoop_cases hn (chunkCount n) 0 s (h hr) (Nat.zero_add _) (by simp)
    · exact hd.answeredWith hn
    · exact hd.answeredWith hn hk

/-- Every command answers once, with what it reports (R88). -/
theorem exec_answeredWith {i : Instr} {s t : State} (h : s.Inv) (he : exec i s = .next t) :
    AnsweredWith (Reports s.offset i) s t := by
  cases i with
  | initRnd | initSeed | initRndMax | initSeedMax => exact exec_init_answeredWith rfl he
  | readAll => cases he; exact readCommand_answeredWith h none
  | read a => cases he; exact readCommand_answeredWith h (some a)
  | seekSet a => cases he; exact seekCommand_answeredWith .set a s
  | seekCur a => cases he; exact seekCommand_answeredWith .cur a s
  | seekEnd a => cases he; exact seekCommand_answeredWith .fromEnd a s
  | tell => exact exec_tell_answeredWith he
  | dumpAll => cases he; exact dumpCommand_answeredWith h none
  | dump a => cases he; exact dumpCommand_answeredWith h (some a)

/-! ### Any command word -/

/-- No command touches what the host does next (R305). -/
theorem exec_inbox {i : Instr} {s t : State} (he : exec i s = .next t) : t.inbox = s.inbox := by
  cases hi : isInit i with
  | true =>
    rcases exec_init_cases hi s with hx | ⟨k, m, u, hx, -, hu, -⟩ <;> rw [hx] at he <;> cases he
    · rfl
    · exact hu
  | false => exact (exec_frame hi he).inbox.symm

theorem runWord_inbox {w : CommandWord} {s t : State} (h : runWord w s = .next t) : t.inbox = s.inbox := by
  cases hd : decode w with
  | error e => rw [runWord_of_reject hd] at h; cases h; rfl
  | ok i => rw [runWord_of_decode hd] at h; exact exec_inbox h

/-- A command word, reserved or not, is answered once, with what its command reports (R88, R273). -/
theorem runWord_answeredWith {w : CommandWord} {s t : State} (h : s.Inv) (hw : runWord w s = .next t) :
    AnsweredWith (fun v data => ∀ i, decode w = .ok i → Reports s.offset i v data) s t := by
  cases hd : decode w with
  | error e => rw [runWord_of_reject hd] at hw; cases hw; exact answeredWith_raise rfl
  | ok i =>
    rw [runWord_of_decode hd] at hw
    obtain ⟨data, r, hout, hdata, hz, hv⟩ := exec_answeredWith h hw
    exact ⟨data, r, hout, hdata, hz, fun hr j hj => by cases hj; exact hv hr⟩

/-- Settles O12: the step runs the word, which is answered once (`runWord_answeredWith`); each clause of the
statement is what `Reports` says of its commands. -/
theorem oneResponsePerCommandWithItsValue : Obligations.OneResponsePerCommandWithItsValue := by
  intro s w rest hinv hi
  obtain ⟨t, ht⟩ := runWord_next w { s with inbox := rest }
  obtain ⟨data, r, hout, hdata, hz, hv⟩ := runWord_answeredWith (inv_inbox hinv rest) ht
  refine ⟨t, data, r, (step_command hi).trans ht, runWord_inbox ht, hout, hdata, hz, fun i hd hr => ?_⟩
  have hrep := hv hr i hd
  refine ⟨fun hinit => reports_of_isInit hinit hrep, fun _ hform => ?_, fun _ hform => ?_,
    fun hform => ?_, fun _ hform => ?_⟩
  · rcases hform with rfl | rfl <;> exact hrep
  · rcases hform with rfl | rfl | rfl <;> exact hrep
  · subst hform; exact hrep
  · rcases hform with rfl | rfl <;> exact hrep

end Sys2Proof.Machine
end

section
/-! The bound (spec rules R61, R171): no `READ` or `DUMP` carries the position past it. -/

namespace Sys2Proof.Machine

/-- With a bound, a size that passes the check ends at the bound at the latest, or is 0 (R171). -/
theorem checkSize_le_bound {size : Option Nat} {s : State} {n : Nat} (hv : s.maxValid = true)
    (h : checkSize size s = .ok n) : s.offset.toNat + n ≤ max s.offset.toNat s.maxSize.toNat := by
  obtain ⟨-, -, m, hm, hn⟩ := checkSize_ok h
  have hle : m ≤ (s.maxSize.toNat : Int) - s.offset.toNat := by
    cases size with
    | none => rw [resolveSize_none hv] at hm; cases hm; exact le_refl _
    | some a => rw [resolveSize_some, if_pos hv] at hm; cases hm; exact min_le_right _ _
  omega

/-- The loop of `DUMP` on `n` bytes moves the position by at most `n`, also when the sink fails (R277). -/
theorem dumpLoop_offset_le {s : State} {n : Nat} (h : s.Consistent)
    (hn : s.offset.toNat + n ≤ Config.offsetMax) :
    (dumpLoop (chunkCount n) n 0 s).offset.toNat ≤ s.offset.toNat + n := by
  rw [dumpLoop_start]
  obtain ⟨-, -, hd | ⟨k, -, hd⟩⟩ := dumpLoop_cases hn (chunkCount n) 0 s h (Nat.zero_add _) (by simp)
  · exact Nat.le_of_eq hd.offset
  · rw [hd.offset]; exact Nat.add_le_add_left (Nat.min_le_left ..) _

theorem readCommand_offset_le {s : State} (h : s.Consistent) (hv : s.maxValid = true) (size : Option Nat) :
    (readCommand size s).offset.toNat ≤ max s.offset.toNat s.maxSize.toNat := by
  rcases readCommand_cases size s with ⟨e, -, hx⟩ | ⟨-, hx⟩ | ⟨n, -, h0, hn, hc, hx⟩ <;> rw [hx]
  · exact le_max_left ..
  · exact le_max_left ..
  · obtain ⟨-, hoff, -⟩ := deliver_spec h h0 hn
    rw [hoff]; exact checkSize_le_bound hv hc

theorem dumpCommand_offset_le {s : State} (h : s.Consistent) (hv : s.maxValid = true) (size : Option Nat) :
    (dumpCommand size s).offset.toNat ≤ max s.offset.toNat s.maxSize.toNat := by
  rcases dumpCommand_cases size s with ⟨e, -, hx⟩ | ⟨-, hx⟩ | ⟨n, -, -, hn, hc, hx⟩ <;> rw [hx]
  · exact le_max_left ..
  · exact le_max_left ..
  · exact (dumpLoop_offset_le h hn).trans (checkSize_le_bound hv hc)

/-- Settles O41, command by command: the resolved size never reaches past the bound
(`checkSize_le_bound`). -/
theorem readsNeverCrossTheBound : Obligations.ReadsNeverCrossTheBound := by
  intro i s t hi hr hv hform he
  have hc := hi hr
  rcases hform with rfl | rfl | ⟨a, rfl | rfl⟩ <;> cases he
  · exact readCommand_offset_le hc hv none
  · exact dumpCommand_offset_le hc hv none
  · exact readCommand_offset_le hc hv (some a)
  · exact dumpCommand_offset_le hc hv (some a)

end Sys2Proof.Machine
end

section
/-! The encoding (spec rules R81 to R88): the field pattern of each command form, which its row of the opcode
table tests, `encode` writes and `decode` reads; the reserved words are those that have no form. -/

namespace Sys2Proof

open Machine

/-! ### The field pattern of a command form -/

/-- What the words of one command form have in common (R83, R84): `op`, `mod` and which operand fields the
form uses; the others are zero (R86). -/
structure Form where
  op : Byte
  mod : Byte
  usesA : Bool
  usesB : Bool

/-- The form of a command, as the tables of R83 and R84 give it. -/
def Instr.form : Instr → Form
  | .initRnd => ⟨1, 0, false, false⟩
  | .initSeed _ => ⟨1, 1, true, false⟩
  | .initRndMax _ => ⟨1, 2, false, true⟩
  | .initSeedMax _ _ => ⟨1, 3, true, true⟩
  | .readAll => ⟨2, 0, false, false⟩
  | .read _ => ⟨2, 1, true, false⟩
  | .seekSet _ => ⟨3, 0, true, false⟩
  | .seekCur _ => ⟨3, 1, true, false⟩
  | .seekEnd _ => ⟨3, 2, true, false⟩
  | .tell => ⟨4, 0, false, false⟩
  | .dumpAll => ⟨5, 0, false, false⟩
  | .dump _ => ⟨5, 1, true, false⟩

/-- The command of the same form with its operands read from the fields `A` and `B` (R85). -/
def Instr.withFields (a b : Word64) : Instr → Instr
  | .initRnd => .initRnd
  | .initSeed _ => .initSeed a.toNat
  | .initRndMax _ => .initRndMax b.toNat
  | .initSeedMax _ _ => .initSeedMax a.toNat b.toNat
  | .readAll => .readAll
  | .read _ => .read a.toNat
  | .seekSet _ => .seekSet a.toInt
  | .seekCur _ => .seekCur a.toInt
  | .seekEnd _ => .seekEnd a.toInt
  | .tell => .tell
  | .dumpAll => .dumpAll
  | .dump _ => .dump a.toNat

/-- The word has the form's `op` and `mod`, and zeros in the fields the form does not use (R86). -/
structure Form.Fits (f : Form) (w : CommandWord) : Prop where
  op : fieldOp w = f.op
  mod : fieldMod w = f.mod
  unusedA : f.usesA = false → fieldA w = 0
  unusedB : f.usesB = false → fieldB w = 0

/-- The mask of an operand field: a row tests the field where the form does not use it. -/
def unusedMask : Bool → Word64
  | false => .allOnes 64
  | true => 0

/-- The fields that the row of a form tests: all of `op` and `mod`, and the operand fields it does not use. -/
theorem opcodeRow_eq (i : Instr) :
    opcodeRow i = ⟨commandWord 0xff#8 0xff#8 (unusedMask i.form.usesA) (unusedMask i.form.usesB),
      commandWord i.form.op i.form.mod 0 0⟩ := by
  cases i <;> simp only [opcodeRow, Instr.form, unusedMask] <;> decide +kernel

theorem commandWord_and (op mod op' mod' : Byte) (a b a' b' : Word64) :
    commandWord op mod a b &&& commandWord op' mod' a' b' =
      commandWord (op &&& op') (mod &&& mod') (a &&& a') (b &&& b') := by
  rw [commandWord, commandWord, BitVec.and_append, BitVec.and_append, BitVec.and_append, commandWord]

/-- Words are equal when their four fields are (R81). -/
theorem commandWord_inj {op mod op' mod' : Byte} {a b a' b' : Word64} :
    commandWord op mod a b = commandWord op' mod' a' b' ↔ op = op' ∧ mod = mod' ∧ a = a' ∧ b = b' := by
  refine ⟨fun h => ⟨?_, ?_, ?_, ?_⟩, fun ⟨ho, hm, ha, hb⟩ => by rw [ho, hm, ha, hb]⟩
  · simpa using congrArg fieldOp h
  · simpa using congrArg fieldMod h
  · simpa using congrArg fieldA h
  · simpa using congrArg fieldB h

/-- A masked operand field is zero: no condition where the form uses it, the field itself zero where not. -/
theorem and_unusedMask_eq_zero {a : Word64} {used : Bool} :
    a &&& unusedMask used = 0 ↔ (used = false → a = 0) := by
  cases used
  · rw [unusedMask, BitVec.and_allOnes, imp_iff_right rfl]
  · exact iff_of_true BitVec.and_zero nofun

/-- A word selects the row of a command exactly when it has the command's form (R87). -/
theorem opcodeRow_selects_iff {i : Instr} {w : CommandWord} :
    (opcodeRow i).selects w = true ↔ i.form.Fits w := by
  have hff (v : Byte) : v &&& 0xff#8 = v := BitVec.and_allOnes
  rw [OpcodeRow.selects, beq_iff_eq, opcodeRow_eq, ← commandWord_fields w, commandWord_and, commandWord_inj,
    and_unusedMask_eq_zero, and_unusedMask_eq_zero, hff, hff, commandWord_fields]
  exact ⟨fun ⟨ho, hm, ha, hb⟩ => ⟨ho, hm, ha, hb⟩, fun ⟨ho, hm, ha, hb⟩ => ⟨ho, hm, ha, hb⟩⟩

/-- Every row of the table is the row of a command, and every command's row is in the table. -/
theorem mem_opcodeTable_iff {r : OpcodeRow} : r ∈ opcodeTable ↔ ∃ i, r = opcodeRow i := by
  refine ⟨fun h => ?_, ?_⟩
  · simp only [opcodeTable, List.mem_cons, List.not_mem_nil, or_false] at h
    rcases h with h | h | h | h | h | h | h | h | h | h | h | h <;> exact ⟨_, h⟩
  · rintro ⟨i, rfl⟩
    cases i <;> simp [opcodeTable, opcodeRow]

/-! ### Words of a form decode, and encode again -/

/-- A word of a command's form decodes to that form with the operands of its fields (R83 to R86). -/
theorem decode_of_fits {i : Instr} {w : CommandWord} (h : i.form.Fits w) :
    decode w = .ok (i.withFields (fieldA w) (fieldB w)) := by
  obtain ⟨ho, hm, ha, hb⟩ := h
  rw [decode, ho, hm]
  cases i with
  | initRnd | readAll | tell | dumpAll => rw [ha rfl, hb rfl]; rfl
  | initSeed => rw [hb rfl]; simp [Instr.form, Instr.withFields, decodeFields, decodeInit]
  | initRndMax => rw [ha rfl]; simp [Instr.form, Instr.withFields, decodeFields, decodeInit]
  | initSeedMax => simp [Instr.form, Instr.withFields, decodeFields, decodeInit]
  | read => rw [hb rfl]; simp [Instr.form, Instr.withFields, decodeFields, decodeRead]
  | seekSet | seekCur | seekEnd => rw [hb rfl]; simp [Instr.form, Instr.withFields, decodeFields, decodeSeek]
  | dump => rw [hb rfl]; simp [Instr.form, Instr.withFields, decodeFields, decodeDump]

/-- The word of any command, well-formed or not, has the command's form (R87). -/
theorem fits_encode (i : Instr) : i.form.Fits (encode i) := by
  constructor <;> cases i <;> simp [encode, Instr.form]

/-- A word of a form is the word of the command with the operands of its fields. -/
theorem encode_withFields {i : Instr} {w : CommandWord} (h : i.form.Fits w) :
    encode (i.withFields (fieldA w) (fieldB w)) = w := by
  obtain ⟨ho, hm, ha, hb⟩ := h
  conv_rhs => rw [← commandWord_fields w, ho, hm]
  cases i with
  | initRnd | readAll | tell | dumpAll => rw [ha rfl, hb rfl]; rfl
  | initSeed | read | dump | seekSet | seekCur | seekEnd => rw [hb rfl]; simp [Instr.withFields, encode, Instr.form]
  | initRndMax => rw [ha rfl]; simp [Instr.withFields, encode, Instr.form]
  | initSeedMax => simp [Instr.withFields, encode, Instr.form]

/-- What an unsigned field holds fits it (R85). -/
theorem fitsUnsigned_toNat (a : Word64) : fitsUnsigned a.toNat = true := decide_eq_true a.isLt

/-- What a signed field holds fits it (R85). -/
theorem fitsSigned_toInt (a : Word64) : fitsSigned a.toInt = true :=
  decide_eq_true ⟨BitVec.le_toInt a, BitVec.toInt_lt⟩

/-- Operands read from fields are in range (R85, R91). -/
theorem wellFormed_withFields (a b : Word64) (i : Instr) : (i.withFields a b).wellFormed = true := by
  cases i <;> simp [Instr.withFields, Instr.wellFormed, fitsUnsigned_toNat, fitsSigned_toInt]

/-- An unsigned operand in range comes back from its field (R85). -/
theorem toNat_ofNat_of_fitsUnsigned {n : Nat} (h : fitsUnsigned n = true) : (BitVec.ofNat 64 n).toNat = n := by
  rw [BitVec.toNat_ofNat, Nat.mod_eq_of_lt (of_decide_eq_true h)]

/-- A signed operand in range comes back from its field (R85). -/
theorem toInt_ofInt_of_fitsSigned {t : Int} (h : fitsSigned t = true) : (BitVec.ofInt 64 t).toInt = t := by
  obtain ⟨hlo, hhi⟩ := of_decide_eq_true h
  rw [BitVec.toInt_ofInt, Int.bmod_def]
  omega

/-- A well-formed command comes back from the fields of its word (R85). -/
theorem withFields_encode {i : Instr} (h : i.wellFormed = true) :
    i.withFields (fieldA (encode i)) (fieldB (encode i)) = i := by
  cases i with
  | initRnd | readAll | tell | dumpAll => rfl
  | initSeed | initRndMax | read | dump => simp [Instr.withFields, encode, toNat_ofNat_of_fitsUnsigned h]
  | initSeedMax n m =>
    obtain ⟨hn, hm⟩ := Bool.and_eq_true_iff.1 h
    simp [Instr.withFields, encode, toNat_ofNat_of_fitsUnsigned hn, toNat_ofNat_of_fitsUnsigned hm]
  | seekSet | seekCur | seekEnd => simp [Instr.withFields, encode, toInt_ofInt_of_fitsSigned h]

/-- The word of a well-formed command decodes to it. -/
theorem decode_encode {i : Instr} (h : i.wellFormed = true) : decode (encode i) = .ok i := by
  rw [decode_of_fits (fits_encode i), withFields_encode h]

/-- Settles O1: the word has the command's form (`fits_encode`), so the decoder gives the form with the
operands of the word's fields, which are the command's own (`withFields_encode`). -/
theorem decodeOfEncodeIsTheCommand : Obligations.DecodeOfEncodeIsTheCommand :=
  fun _ h => decode_encode h

/-- A word that is the word of a well-formed command decodes to that command. -/
theorem decode_of_encode_eq {i : Instr} {w : CommandWord} (hi : i.wellFormed = true) (hw : encode i = w) :
    decode w = .ok i :=
  hw ▸ decode_encode hi

/-- Settles O4: each worked word is its command's encoding, so `decode_of_encode_eq` applies; the reserved
examples are decoded as they stand. -/
theorem wordsOfTheSpecDecode : Obligations.WordsOfTheSpecDecode := by
  refine ⟨?_, ?_, ?_, ?_, ?_, ?_, ?_, ?_, ?_, ?reserved⟩
  case reserved => decide +kernel
  all_goals exact decode_of_encode_eq (by decide) (by decide +kernel)

/-! ### Reserved words -/

/-- No bit of `mod` but the two of `INIT` and `SEEK` is set (R84). -/
theorem and_fc_eq_zero_iff {m : Byte} : m &&& 0xfc#8 = 0#8 ↔ m.toNat < 4 := by
  revert m; decide

/-- No bit of `mod` but the one of `READ` and `DUMP` is set (R84). -/
theorem and_fe_eq_zero_iff {m : Byte} : m &&& 0xfe#8 = 0#8 ↔ m.toNat < 2 := by
  revert m; decide

theorem getLsbD_zero_eq (m : Byte) : m.getLsbD 0 = decide (m.toNat % 2 = 1) :=
  Nat.testBit_zero ..

theorem getLsbD_one_eq (m : Byte) : m.getLsbD 1 = decide (m.toNat / 2 % 2 = 1) :=
  Nat.testBit_eq_decide_div_mod_eq ..

theorem byte_cases_of_lt_four {m : Byte} : m.toNat < 4 → m = 0 ∨ m = 1 ∨ m = 2 ∨ m = 3 := by
  revert m; decide

theorem byte_cases_of_lt_two {m : Byte} : m.toNat < 2 → m = 0 ∨ m = 1 := by
  revert m; decide

/-- A word that is not reserved has the form of some command (R84, R86, R87). -/
theorem exists_fits_of_not_reserved {w : CommandWord} (h : ¬ReservedWord w) : ∃ i : Instr, i.form.Fits w := by
  simp only [ReservedWord] at h
  push Not at h
  obtain ⟨hop, hinit, hread, hseek, htell⟩ := h
  by_cases h1 : fieldOp w = 1
  · obtain ⟨hm, ha, hb⟩ := hinit h1
    rcases byte_cases_of_lt_four hm with h | h | h | h <;> rw [h] at ha hb
    · exact ⟨.initRnd, h1, h, fun _ => ha rfl, fun _ => hb rfl⟩
    · exact ⟨.initSeed 0, h1, h, nofun, fun _ => hb rfl⟩
    · exact ⟨.initRndMax 0, h1, h, fun _ => ha rfl, nofun⟩
    · exact ⟨.initSeedMax 0 0, h1, h, nofun, nofun⟩
  by_cases h2 : fieldOp w = 2
  · obtain ⟨hm, hb, ha⟩ := hread (.inl h2)
    rcases byte_cases_of_lt_two hm with h | h <;> rw [h] at ha
    · exact ⟨.readAll, h2, h, fun _ => ha rfl, fun _ => hb⟩
    · exact ⟨.read 0, h2, h, nofun, fun _ => hb⟩
  by_cases h3 : fieldOp w = 3
  · obtain ⟨hm, hm3, hb⟩ := hseek h3
    rcases byte_cases_of_lt_four hm with h | h | h | h
    · exact ⟨.seekSet 0, h3, h, nofun, fun _ => hb⟩
    · exact ⟨.seekCur 0, h3, h, nofun, fun _ => hb⟩
    · exact ⟨.seekEnd 0, h3, h, nofun, fun _ => hb⟩
    · exact absurd (by rw [h]; rfl) hm3
  by_cases h4 : fieldOp w = 4
  · obtain ⟨hm, ha, hb⟩ := htell h4
    exact ⟨.tell, h4, hm, fun _ => ha, fun _ => hb⟩
  have h5 : fieldOp w = 5 := hop h1 h2 h3 h4
  obtain ⟨hm, hb, ha⟩ := hread (.inr h5)
  rcases byte_cases_of_lt_two hm with h | h <;> rw [h] at ha
  · exact ⟨.dumpAll, h5, h, fun _ => ha rfl, fun _ => hb⟩
  · exact ⟨.dump 0, h5, h, nofun, fun _ => hb⟩

/-- A check refuses, or what follows it does. -/
theorem exists_error_ite {c : Prop} [Decidable c] {e : Reject} {x : Except Reject Instr} :
    (∃ e', (if c then .error e else x) = .error e') ↔ c ∨ ∃ e', x = .error e' := by
  by_cases h : c <;> simp [h]

/-- A last check refuses. -/
theorem exists_error_ite_ok {c : Prop} [Decidable c] {e : Reject} {i : Instr} :
    (∃ e', (if c then Except.ok i else .error e) = .error e') ↔ ¬c := by
  by_cases h : c <;> simp [h]

theorem decodeInit_error_iff {m : Byte} {a b : Word64} :
    (∃ e, decodeInit m a b = .error e) ↔
      4 ≤ m.toNat ∨ (m.toNat % 2 = 0 ∧ a ≠ 0) ∨ (m.toNat / 2 % 2 = 0 ∧ b ≠ 0) := by
  rw [decodeInit, exists_error_ite, Ne, and_fc_eq_zero_iff, not_lt, getLsbD_zero_eq, getLsbD_one_eq]
  refine or_congr_right ?_
  rcases Nat.mod_two_eq_zero_or_one m.toNat with h0 | h0 <;>
    rcases Nat.mod_two_eq_zero_or_one (m.toNat / 2) with h1 | h1 <;>
      simp [h0, h1, exists_error_ite, exists_error_ite_ok]

theorem decodeRead_error_iff {m : Byte} {a b : Word64} :
    (∃ e, decodeRead m a b = .error e) ↔ 2 ≤ m.toNat ∨ b ≠ 0 ∨ (m.toNat % 2 = 0 ∧ a ≠ 0) := by
  rw [decodeRead, exists_error_ite, exists_error_ite, Ne, and_fe_eq_zero_iff, not_lt, getLsbD_zero_eq]
  rcases Nat.mod_two_eq_zero_or_one m.toNat with h | h <;> simp [h, exists_error_ite_ok]

/-- `DUMP` refuses the operand fields that `READ` refuses (R84, R86). -/
theorem decodeDump_error_iff {m : Byte} {a b : Word64} :
    (∃ e, decodeDump m a b = .error e) ↔ ∃ e, decodeRead m a b = .error e := by
  rw [decodeDump, decodeRead]
  split_ifs <;> simp

theorem decodeSeek_error_iff {m : Byte} {a b : Word64} :
    (∃ e, decodeSeek m a b = .error e) ↔ 4 ≤ m.toNat ∨ m.toNat = 3 ∨ b ≠ 0 := by
  rw [decodeSeek, exists_error_ite, exists_error_ite, exists_error_ite, Ne, and_fc_eq_zero_iff, not_lt,
    ← BitVec.toNat_inj]
  split_ifs <;> simp

theorem decodeTell_error_iff {m : Byte} {a b : Word64} :
    (∃ e, decodeTell m a b = .error e) ↔ m ≠ 0 ∨ a ≠ 0 ∨ b ≠ 0 := by
  rw [decodeTell, exists_error_ite, exists_error_ite]
  simp

/-- The decoder refuses exactly the reserved words (R87). -/
theorem reservedWord_iff_decode_error {w : CommandWord} : ReservedWord w ↔ ∃ e, decode w = .error e := by
  rw [ReservedWord, decode, decodeFields]
  split_ifs with h1 h2 h3 h4 h5
  · simp [h1, decodeInit_error_iff]
  · simp [h2, decodeRead_error_iff]
  · simp [h3, decodeSeek_error_iff]
  · simp [h4, decodeTell_error_iff]
  · simp [h5, decodeDump_error_iff, decodeRead_error_iff]
  · exact iff_of_true (.inl ⟨h1, h2, h3, h4, h5⟩) ⟨_, rfl⟩

/-- A word that decodes has the form of its command, with the operands of its fields. -/
theorem fits_of_decode {w : CommandWord} {i : Instr} (h : decode w = .ok i) :
    i.form.Fits w ∧ i.withFields (fieldA w) (fieldB w) = i := by
  have hres : ¬ReservedWord w := fun hr => by
    obtain ⟨e, he⟩ := reservedWord_iff_decode_error.1 hr
    cases h.symm.trans he
  obtain ⟨j, hj⟩ := exists_fits_of_not_reserved hres
  cases h.symm.trans (decode_of_fits hj)
  cases j <;> exact ⟨hj, rfl⟩

/-- Settles O2: the command's operands are the word's fields (`fits_of_decode`), which are in range and
encode to the word again. -/
theorem encodeOfDecodeIsTheWord : Obligations.EncodeOfDecodeIsTheWord := by
  intro w i h
  obtain ⟨hfits, hi⟩ := fits_of_decode h
  rw [← hi]
  exact ⟨wellFormed_withFields .., hi.symm ▸ encode_withFields hfits⟩

/-- The reserved words are those in no row of the table (R87). -/
theorem reservedWord_iff_no_row {w : CommandWord} :
    ReservedWord w ↔ ∀ r ∈ opcodeTable, r.selects w = false := by
  refine ⟨fun hr r hmem => ?_, fun h => by_contra fun hr => ?_⟩
  · obtain ⟨i, rfl⟩ := mem_opcodeTable_iff.1 hmem
    obtain ⟨e, he⟩ := reservedWord_iff_decode_error.1 hr
    refine Bool.eq_false_iff.2 fun hsel => ?_
    cases he.symm.trans (decode_of_fits (opcodeRow_selects_iff.1 hsel))
  · obtain ⟨i, hi⟩ := exists_fits_of_not_reserved hr
    exact Bool.eq_false_iff.1 (h _ (mem_opcodeTable_iff.2 ⟨i, rfl⟩)) (opcodeRow_selects_iff.2 hi)

/-- Two rows that select one word agree on the bits that both test. -/
theorem OpcodeRow.patterns_agree {r q : OpcodeRow} {w : CommandWord} (hr : r.selects w = true)
    (hq : q.selects w = true) : r.pattern &&& q.mask = q.pattern &&& r.mask := by
  rw [← beq_iff_eq.1 hr, ← beq_iff_eq.1 hq, BitVec.and_assoc, BitVec.and_comm r.mask, BitVec.and_assoc]

/-- No word selects two rows: any two differ on a bit that both test (R87). -/
theorem opcodeTable_pairwise_disjoint :
    opcodeTable.Pairwise fun r q => ∀ w, ¬(r.selects w = true ∧ q.selects w = true) := by
  have hdiffer : opcodeTable.Pairwise fun r q => r.pattern &&& q.mask ≠ q.pattern &&& r.mask := by
    decide +kernel
  exact hdiffer.imp fun hne _ ⟨hr, hq⟩ => hne (OpcodeRow.patterns_agree hr hq)

/-- Settles O3: a word selects a row exactly when it has the form of the row's command
(`opcodeRow_selects_iff`), and has some form exactly when it is not reserved. -/
theorem reservedWordsMatchNoTableRow : Obligations.ReservedWordsMatchNoTableRow :=
  ⟨fun _ => reservedWord_iff_no_row, fun _ => reservedWord_iff_decode_error,
    fun _ _ h => opcodeRow_selects_iff.2 (fits_of_decode h).1, opcodeTable_pairwise_disjoint⟩

end Sys2Proof
end

section
/-! Words as big-endian bytes and as rows of fields (spec rules R12, R82, R88). -/

namespace Sys2Proof.Machine

/-- The first bytes of a number are those of its high part, the last those of its low part (R12). -/
theorem be_add (m n v : Nat) : be (m + n) v = be m (v / 256 ^ n) ++ be n v := by
  induction m with
  | zero => rw [Nat.zero_add]; rfl
  | succ m ih =>
    rw [Nat.succ_add, be, be, ih, Nat.div_div_eq_div_mul, ← pow_add, Nat.add_comm n m, List.cons_append]

/-- A word of two parts, the second of `n` bytes, is the bytes of the parts in order (R11, R12). -/
theorem be_toNat_append {k l : Nat} (m n : Nat) (x : BitVec k) (y : BitVec l) (hl : l = 8 * n) :
    be (m + n) (x ++ y).toNat = be m x.toNat ++ be n y.toNat := by
  have hpow : 2 ^ l = 256 ^ n := by rw [hl, pow_mul]; norm_num
  have hy : y.toNat < 256 ^ n := hpow ▸ y.isLt
  have hxy : (x ++ y).toNat = 256 ^ n * x.toNat + y.toNat := by
    rw [BitVec.toNat_append, ← Nat.shiftLeft_add_eq_or_of_lt y.isLt, Nat.shiftLeft_eq, hpow, Nat.mul_comm]
  rw [be_add, ← be_mod n, hxy, Nat.mul_add_div (by positivity), Nat.div_eq_of_lt hy, Nat.add_zero,
    Nat.mul_add_mod, Nat.mod_eq_of_lt hy]

/-- One byte is itself. -/
theorem be_one (x : Byte) : be 1 x.toNat = [x] := by
  simp [be]

/-- A command word as bytes: `op`, `mod`, `A`, `B` (R82). -/
theorem be_commandWord (op mod : Byte) (a b : Word64) :
    be 18 (commandWord op mod a b).toNat = [op, mod] ++ be 8 a.toNat ++ be 8 b.toNat := by
  rw [commandWord, be_toNat_append 10 8 _ b rfl, be_toNat_append 2 8 _ a rfl, be_toNat_append 1 1 op mod rfl,
    be_one, be_one]
  rfl

/-- The bytes of a command word carry that word (R82). -/
theorem wordOfCommandBytes_be (w : CommandWord) : wordOfCommandBytes (be 18 w.toNat) = w := by
  rw [wordOfCommandBytes, ofBe_be 18 _ w.isLt, BitVec.ofNat_toNat, BitVec.setWidth_eq]

/-- Settles O5: both words are rows of parts, whose bytes follow one another (`be_toNat_append`). -/
theorem wordsAsBytesAreBigEndian : Obligations.WordsAsBytesAreBigEndian := by
  refine ⟨fun w => ⟨?_, be_length .., ?_⟩, fun r => ⟨?_, be_length ..⟩⟩
  · conv_lhs => rw [← commandWord_fields w]
    exact be_commandWord ..
  · rw [decodeBytes, if_pos (be_length ..), wordOfCommandBytes_be]
  · rw [Response.bytes, Response.word, be_toNat_append 1 8 _ _ rfl, be_one]
    rfl

/-- Settles O13: the word is `status` on top of `value`. -/
theorem responseWordLayout : Obligations.ResponseWordLayout := by
  refine ⟨fun r => ⟨?_, ?_⟩, rfl, rfl, rfl, rfl, rfl, rfl⟩
  · rw [Response.word]
    exact BitVec.extractLsb'_append_eq_left
  · exact BitVec.extractLsb'_append_eq_right

end Sys2Proof.Machine
end

section
/-! `INIT` as a function of its ports (spec rules R113 to R118), the bytes read after it, and the canonical bytes
of a typed seed (R111, R112). -/

namespace Sys2Proof.Machine

/-- Both encodings of `INIT` with a seed run the same operation, with or without a bound (R115). -/
theorem exec_initSeedCommand (len : Nat) (m : Option Nat) (s : State) :
    exec (initSeedCommand len m) s = .next (initFromSeed len m s) := by
  cases m <;> rfl

/-! ### Too long a seed -/

/-- A seed that SHA-256 cannot hash is refused (R116). -/
theorem initFromSeed_of_gt {len : Nat} (h : Config.seedLenMax < len) (m : Option Nat) (s : State) :
    initFromSeed len m s = raise .invalidArgument s :=
  if_pos h

/-- Settles O16: both forms run `initFromSeed`, which refuses too long a seed. -/
theorem tooLongSeedIsRefused : Obligations.TooLongSeedIsRefused := by
  intro s seedLen maxSize h
  have refused (m : Option Nat) : exec (initSeedCommand seedLen m) s =
      .next { s with out := s.out ++ [.resp ⟨.invalidArgument, 0⟩] } := by
    rw [exec_initSeedCommand, initFromSeed_of_gt h, raise_eq]
  exact ⟨refused none, refused (some maxSize)⟩

/-! ### A new lifetime forgets the registers -/

namespace SamePorts

variable {s t : State}

/-- A new lifetime is fixed by its key, its bound and the ports (R38, R117). -/
theorem startLifetime_eq (h : SamePorts s t) (k : Key) (m : Option Nat) :
    Machine.startLifetime k m s = Machine.startLifetime k m t := by
  obtain ⟨hinbox, hseed, hrnd, hsink, hout, hdraws⟩ := h
  rw [Machine.startLifetime_eq, Machine.startLifetime_eq, hinbox, hseed, hrnd, hsink, hout, hdraws]

theorem initFromRnd_eq (h : SamePorts s t) (m : Option Nat) : initFromRnd m s = initFromRnd m t := by
  obtain ⟨hbytes, hports⟩ := h.takeRnd
  rw [initFromRnd, initFromRnd, hbytes, hports.startLifetime_eq]

theorem initFromSeed_eq (h : SamePorts s t) {len : Nat} (hl : len ≤ Config.seedLenMax) (m : Option Nat) :
    initFromSeed len m s = initFromSeed len m t := by
  obtain ⟨hbytes, hports⟩ := h.takeSeed len
  rw [initFromSeed_of_le hl, initFromSeed_of_le hl, hbytes, hports.startLifetime_eq]

/-- `INIT` with a seed is refused, or its outcome is fixed by the ports (R116, R117). -/
theorem exec_initSeedCommand (h : SamePorts s t) (len : Nat) (m : Option Nat) :
    exec (initSeedCommand len m) s = .next (raise .invalidArgument s) ∨
      exec (initSeedCommand len m) s = exec (initSeedCommand len m) t := by
  rw [Machine.exec_initSeedCommand, Machine.exec_initSeedCommand]
  rcases Nat.lt_or_ge Config.seedLenMax len with hl | hl
  · exact .inl (by rw [initFromSeed_of_gt hl])
  · exact .inr (by rw [h.initFromSeed_eq hl])

/-- `INIT` is refused, or its outcome is fixed by the ports (R116, R117). -/
theorem exec_init (h : SamePorts s t) {i : Instr} (hi : isInit i = true) :
    exec i s = .next (raise .invalidArgument s) ∨ exec i s = exec i t := by
  cases i with
  | initRnd => exact .inr (congrArg Host.Outcome.next (h.initFromRnd_eq none))
  | initSeed len => exact h.exec_initSeedCommand len none
  | initRndMax m => exact .inr (congrArg Host.Outcome.next (h.initFromRnd_eq (some m)))
  | initSeedMax len m => exact h.exec_initSeedCommand len (some m)
  | readAll | read | seekSet | seekCur | seekEnd | tell | dumpAll | dump => cases hi

end SamePorts

/-- Settles O17: what an accepted `INIT` leaves is fixed by the ports (`SamePorts.exec_init`); a refused one
gives itself away by its answer. -/
theorem initKeepsNothingOfTheEarlierLifetime : Obligations.InitKeepsNothingOfTheEarlierLifetime := by
  intro i s s' t t' hi hp hs hs' hout
  rcases hp.exec_init hi with h | h <;> rw [hs] at h
  · cases h; exact absurd (raise_out ..) hout
  · rw [hs'] at h; cases h; rfl

/-! ### A seed and the bytes read after it -/

/-- A seed that the host has placed on `seed_in` is taken as it is (R115). -/
theorem takeSeed_placed {s : State} {seed later : List Byte} (h : s.seedIn = seed ++ later) :
    takeSeed seed.length s = (seed, { s with seedIn := later }) := by
  simp [takeSeed, portBytes, h]

/-- The step that takes an accepted `INIT` whose seed stands on `seed_in` (R113, R115). -/
theorem step_initSeed {s : State} {seed later : List Byte} {m : Option Nat} {rest : List HostEvent}
    (hw : (initSeedCommand seed.length m).wellFormed = true)
    (hi : s.inbox = .command (encode (initSeedCommand seed.length m)) :: rest)
    (hs : s.seedIn = seed ++ later) (hl : seed.length ≤ Config.seedLenMax) :
    step s = .next (startLifetime (sha256 seed) m { s with inbox := rest, seedIn := later }) := by
  rw [step_encoded (decode_encode hw) hi, exec_initSeedCommand, initFromSeed_of_le hl,
    takeSeed_placed (s := { s with inbox := rest }) hs]

/-- The step that takes a `READ` leaves what `SameBut` lists (R39). -/
theorem step_read_frame {s t : State} {a : Nat} {rest : List HostEvent} (ha : a < 2 ^ 64)
    (hi : s.inbox = .command (encode (.read a)) :: rest) (ht : step s = .next t) :
    SameBut { s with inbox := rest } t :=
  exec_frame rfl ((step_encoded (decode_encode_read ha) hi).symm.trans ht)


/-- `INIT` with a seed that SHA-256 can hash, and with a bound that fits its field if it has one, has a word
(R9, R91). -/
theorem wellFormed_initSeedCommand {len : Nat} {m : Option Nat} (hl : len ≤ Config.seedLenMax)
    (hm : ∀ b ∈ m, b < 2 ^ 64) : (initSeedCommand len m).wellFormed = true := by
  have hlen : fitsUnsigned len = true := by
    simp only [Config.seedLenMax] at hl
    exact decide_eq_true (by omega)
  cases m with
  | none => exact hlen
  | some b => exact Bool.and_eq_true_iff.2 ⟨hlen, decide_eq_true (hm b rfl)⟩

/-- Right after `INIT` a requested size is cut to the bound, if there is one: the position is 0 (R118, R171). -/
theorem resolvedSize_startLifetime (k : Key) {m : Option Nat} (s : State) (a : Nat) (hm : ∀ b ∈ m, b < 2 ^ 64) :
    ((m.elim a (min a) : Nat) : Int) =
      if (startLifetime k m s).maxValid then
        min (a : Int) ((startLifetime k m s).maxSize.toNat - (startLifetime k m s).offset.toNat)
      else a := by
  cases m with
  | none => rfl
  | some b => simp [toNat_ofNat_of_fitsUnsigned (decide_eq_true (hm b rfl))]

/-- The step that takes a `READ` right after `INIT`, when its size resolves to `n > 0`: the first `n` bytes of
the new key's stream (R118, R170). -/
theorem step_read_startLifetime (k : Key) {m : Option Nat} {s : State} {a : Nat} {rest : List HostEvent}
    (hi : s.inbox = .command (encode (.read a)) :: rest) (ha : a < 2 ^ 64) (hm : ∀ b ∈ m, b < 2 ^ 64)
    (h0 : 0 < m.elim a (min a)) (hn : m.elim a (min a) ≤ Config.offsetMax) :
    ∃ t, step (startLifetime k m s) = .next t ∧ t.inbox = rest ∧ t.seedIn = s.seedIn ∧
      t.offset.toNat = m.elim a (min a) ∧
      t.out = s.out ++ [.resp ⟨.ok, 0⟩, .dout (memRead k 0 (m.elim a (min a))),
        .resp ⟨.ok, BitVec.ofNat 64 (m.elim a (min a))⟩] := by
  have hoff : (startLifetime k m s).offset.toNat = 0 := rfl
  obtain ⟨t, ht, hinbox, htoff, -, hout⟩ :=
    step_read rfl (startLifetime_consistent k m s) hi ha (resolvedSize_startLifetime k s a hm) h0
      (by rwa [hoff, Nat.zero_add])
  refine ⟨t, ht, hinbox, (step_read_frame (s := startLifetime k m s) ha hi ht).seedIn.symm,
    by rw [htoff, hoff, Nat.zero_add], ?_⟩
  rw [hout, hoff, startLifetime_eq, List.append_assoc]
  rfl

/-- Settles O18: `INIT` starts a lifetime whose key is the digest of the seed (`step_initSeed`), and the `READ`
delivers from the start of that key's stream (`step_read_startLifetime`). -/
theorem equalSeedsGiveEqualStreams : Obligations.EqualSeedsGiveEqualStreams := by
  intro s seed later i a n rest hform hi hs hl ha h0 hn
  obtain ⟨m, rfl, hm, rfl⟩ : ∃ m : Option Nat, i = initSeedCommand seed.length m ∧ (∀ b ∈ m, b < 2 ^ 64) ∧
      n = m.elim a (min a) := by
    rcases hform with ⟨rfl, rfl⟩ | ⟨b, hb, rfl, rfl⟩
    · exact ⟨none, rfl, nofun, rfl⟩
    · exact ⟨some b, rfl, by rintro _ ⟨⟩; exact hb, rfl⟩
  have hinit := step_initSeed (wellFormed_initSeedCommand hl hm) hi hs hl
  obtain ⟨t, hread, hinbox, hseed, hoff, hout⟩ :=
    step_read_startLifetime (sha256 seed) (s := { s with inbox := _, seedIn := later }) rfl ha hm h0 hn
  refine ⟨t, ?_, hinbox, hseed, hoff, hout⟩
  rw [runSteps_succ 1 hinit, runSteps_succ 0 hread]
  rfl

/-! ### Canonical bytes -/

/-- The decimal numeral of an integer is Lean's own rendering of it (R111 (c)). -/
theorem toList_toString_int (v : Int) : (toString v).toList = decimalNumeral v := by
  rw [Int.toString_eq_repr, Int.repr_eq_if, decimalNumeral]
  rcases lt_or_ge v 0 with h | h
  · rw [if_neg (by omega), if_pos h, String.toList_append, Nat.toList_repr, show (-v).toNat = v.natAbs by omega]
    rfl
  · rw [if_pos h, if_neg (by omega), Nat.toList_repr, show v.toNat = v.natAbs by omega]
    rfl

/-- Settles O56: an integer's canonical bytes are those of its numeral (`toList_toString_int`); byte strings and
seeds of another type have a case of their own. -/
theorem integerSeedsAreTheirNumerals : Obligations.IntegerSeedsAreTheirNumerals := by
  refine ⟨fun v => ?_, fun _ => rfl, rfl⟩
  rw [canonicalBytes, canonicalBytes, toList_toString_int]

end Sys2Proof.Machine
end

section
/-! `READ_RAW` and `CIPHER_AT` as micro-operations of their own (spec rules R133, R134, R135). -/

namespace Sys2Proof.Machine

/-- On the unit grid `READ_RAW` generates whole units (R133). -/
theorem microStep_readRaw_of_aligned {n : Nat} (h : n % 8 = 0) (s : State) :
    microStep (.readRaw n) s = .next (readUnits (n / 8) s) := if_pos h

/-- Off the unit grid `READ_RAW` is refused (R134). -/
theorem microStep_readRaw_of_not_aligned {n : Nat} (h : n % 8 ≠ 0) (s : State) :
    microStep (.readRaw n) s = .refused .rawReadOffUnitGrid := if_neg h

/-- `readUnits_frame` as one equation of states: only `ctr` and `half` are written (R133). -/
theorem readUnits_eq_with (q : Nat) (s : State) :
    (readUnits q s).2 = { s with ctr := (readUnits q s).2.ctr, half := (readUnits q s).2.half } := by
  obtain ⟨hs, hp, hbuf, hlen, hpos, hoff⟩ := readUnits_frame q s
  rw [hs.ready, hs.key, hs.maxValid, hs.maxSize, hp.inbox, hp.seedIn, hp.rndIn, hp.sinkIn, hp.out, hp.draws,
    ← hbuf, ← hlen, ← hpos, ← hoff]

/-- `READ_RAW(8)` returns the unit the context stands on (R133). -/
theorem readUnits_one (s : State) : (readUnits 1 s).1 = be 8 (streamUnit s.key s.nxt).toNat := by
  rw [readUnits, readUnits, List.append_nil, currentUnit_eq]

/-- Settles O46: on the grid, `readUnits_spec` gives the bytes and the next unit and `readUnits_eq_with` what is
left alone; off it, the refusal. -/
theorem rawReadReturnsWholeUnits : Obligations.RawReadReturnsWholeUnits := by
  refine fun s n => ⟨fun hn hw => ?_, fun hn => microStep_readRaw_of_not_aligned hn s⟩
  obtain ⟨hbytes, hnxt⟩ := readUnits_spec (n / 8) s hw
  rw [Nat.mul_div_cancel' (Nat.dvd_of_mod_eq_zero hn)] at hbytes
  exact ⟨_, by rw [microStep_readRaw_of_aligned hn, ← hbytes], hnxt, readUnits_eq_with (n / 8) s⟩

/-- Settles O49: the next unit is `u` (`cipherAt_nxt`), and the unit the context stands on is the one
`READ_RAW(8)` returns (`readUnits_one`). -/
theorem cipherAtStandsOnTheUnit : Obligations.CipherAtStandsOnTheUnit := by
  intro s u hu
  have hnxt : (cipherAt u s).nxt = u := cipherAt_nxt u s hu
  exact ⟨hnxt, by rw [readUnits_one, hnxt, cipherAt_key], rfl⟩

end Sys2Proof.Machine
end

section
/-! The buffer's micro-operations (spec rules R152 to R158), and the states in which `READ_CORE` and `SEEK` run the
generating ones (spec rules R172, R195, R311, R313). -/

namespace Sys2Proof.Machine

/-! ### `READ_FROM_BUFFER` -/

theorem microStep_readFromBuffer (n : Nat) (s : State) :
    microStep (.readFromBuffer n) s = .next (readFromBuffer n s) := rfl

theorem readFromBuffer_fst (n : Nat) (s : State) : (readFromBuffer n s).1 = s.unconsumed.take n :=
  List.take_take.symm

theorem unconsumed_length {s : State} (hl : s.bufLen.toNat ≤ 8) : s.unconsumed.length = s.rem := by
  simp only [State.unconsumed, State.bufBytes, State.rem, List.length_take, List.length_drop, be_length]
  omega

theorem readFromBuffer_length {s : State} (hl : s.bufLen.toNat ≤ 8) (n : Nat) :
    (readFromBuffer n s).1.length = min n s.rem := by
  rw [readFromBuffer_fst, List.length_take, unconsumed_length hl]

/-- The cursor stays at or below `buf_len`, so its four bits do not wrap (R153). -/
theorem readFromBuffer_bufPos_toNat {s : State} (hp : s.bufPos.toNat ≤ s.bufLen.toNat) (hl : s.bufLen.toNat ≤ 8)
    (n : Nat) : (readFromBuffer n s).2.bufPos.toNat = s.bufPos.toNat + min n s.rem := by
  simp only [readFromBuffer_bufPos, bufferTake, BitVec.toNat_ofNat, State.rem]
  omega

theorem readFromBuffer_rem {s : State} (hp : s.bufPos.toNat ≤ s.bufLen.toNat) (hl : s.bufLen.toNat ≤ 8)
    (n : Nat) : (readFromBuffer n s).2.rem = s.rem - n := by
  simp only [State.rem, readFromBuffer_bufLen, readFromBuffer_bufPos_toNat hp hl]
  omega

/-- A drained buffer gives nothing and stays as it is (R153). -/
theorem readFromBuffer_of_rem_eq_zero {s : State} (h : s.rem = 0) (n : Nat) : readFromBuffer n s = ([], s) := by
  simp [readFromBuffer, bufferTake, h]

/-- Settles O47: the bytes are the first `n` unconsumed ones (`readFromBuffer_fst`), and the cursor does not wrap
(`readFromBuffer_bufPos_toNat`). -/
theorem bufferReadReturnsWhatIsThere : Obligations.BufferReadReturnsWhatIsThere := by
  intro s n hp hl
  refine ⟨_, _, microStep_readFromBuffer n s, readFromBuffer_length hl n, readFromBuffer_fst n s, rfl,
    readFromBuffer_bufPos_toNat hp hl n, fun h => Prod.ext_iff.1 (readFromBuffer_of_rem_eq_zero h n)⟩

/-! ### `FILL_BUFFER`, `SEEK_BUFFER`, `CLEAR_BUFFER` -/

theorem microStep_fillBuffer (s : State) : microStep .fillBuffer s = .next ([], fillBuffer s) := rfl

/-- `FILL_BUFFER` writes the cipher context and the buffer, which holds unit `nxt` after it (R152). -/
theorem fillBuffer_eq_with (s : State) :
    fillBuffer s = { s with
      ctr := (fillBuffer s).ctr, half := (fillBuffer s).half, buf := streamUnit s.key s.nxt, bufLen := 8,
      bufPos := 0 } := by
  rw [← currentUnit_eq]; rfl

/-- Settles O48: `FILL_BUFFER` by `fillBuffer_nxt` and `fillBuffer_eq_with`; `SEEK_BUFFER` by its two branches. -/
theorem bufferMicroOperations : Obligations.BufferMicroOperations := by
  refine fun s => ⟨fun hn => ?_, fun pos h => if_pos h, fun pos h => if_neg (Nat.not_le.2 h), rfl⟩
  have hc := ctr_le_nxt s
  exact ⟨_, microStep_fillBuffer s, fillBuffer_nxt s (by omega), fillBuffer_eq_with s⟩

/-! ### Generation starts on a drained buffer -/

theorem readUnits_rem (q : Nat) (s : State) : (readUnits q s).2.rem = s.rem := by
  obtain ⟨-, -, -, hlen, hpos, -⟩ := readUnits_frame q s
  rw [State.rem, hlen, hpos, State.rem]

theorem readTail_zero (s : State) : readTail 0 s = ([], s) := rfl

theorem readTail_of_ne_zero {r : Nat} (h : r ≠ 0) (s : State) : readTail r s = readFromBuffer r (fillBuffer s) :=
  if_pos (Nat.pos_of_ne_zero h)

/-- `READ_CORE` without a remainder: the drain, then whole units (R172). -/
theorem readCore_of_no_tail {n : Nat} {s afterDrain afterRaw : State} {d raw : List Byte}
    (hd : readFromBuffer n s = (d, afterDrain)) (hr : readUnits ((n - d.length) / 8) afterDrain = (raw, afterRaw))
    (h : (n - d.length) % 8 = 0) : readCore n s = (d ++ raw, advanceOffset (d ++ raw).length afterRaw) := by
  simp only [readCore, hd, hr, h, readTail_zero, List.append_nil]

/-- A read that the drain serves whole generates nothing (R172). -/
theorem readCore_of_drained {n : Nat} {s afterDrain : State} {d : List Byte}
    (hd : readFromBuffer n s = (d, afterDrain)) (h : n = d.length) :
    readCore n s = (d, advanceOffset n afterDrain) := by
  have hm : n - d.length = 0 := by omega
  have hr : readUnits ((n - d.length) / 8) afterDrain = ([], afterDrain) := by rw [hm]; rfl
  rw [readCore_of_no_tail hd hr (by rw [hm]), List.append_nil, ← h]

/-- `READ_CORE` with a remainder: the drain, whole units, and the rest from a unit loaded after them (R172). The
three pieces are `n` bytes together. -/
theorem readCore_of_tail {n : Nat} {s afterDrain afterRaw : State} {d raw : List Byte}
    (hd : readFromBuffer n s = (d, afterDrain)) (hr : readUnits ((n - d.length) / 8) afterDrain = (raw, afterRaw))
    (h : (n - d.length) % 8 ≠ 0) :
    readCore n s =
      (d ++ raw ++ (readFromBuffer ((n - d.length) % 8) (fillBuffer afterRaw)).1,
        advanceOffset n (readFromBuffer ((n - d.length) % 8) (fillBuffer afterRaw)).2) := by
  have hraw : raw.length = 8 * ((n - d.length) / 8) := by
    rw [← readUnits_length ((n - d.length) / 8) afterDrain, hr]
  have htail : (readFromBuffer ((n - d.length) % 8) (fillBuffer afterRaw)).1.length = (n - d.length) % 8 := by
    rw [readFromBuffer_length (by simp), fillBuffer_rem]
    omega
  have hn : (d ++ raw ++ (readFromBuffer ((n - d.length) % 8) (fillBuffer afterRaw)).1).length = n := by
    rw [List.length_append, List.length_append, hraw, htail]
    omega
  simp only [readCore, hd, hr, readTail_of_ne_zero h, hn]

theorem clearBuffer_rem (s : State) : (clearBuffer s).rem = 0 := rfl

theorem cipherAt_rem (u : Nat) (s : State) : (cipherAt u s).rem = s.rem := rfl

theorem reposition_of_aligned {t : Nat} (h : t % 8 = 0) (s : State) :
    reposition t s = seekBuffer 0 (cipherAt (t / 8) (clearBuffer s)) := by
  simp [reposition, h]

theorem reposition_of_inside {t : Nat} (h : t % 8 ≠ 0) (s : State) :
    reposition t s = seekBuffer (t % 8) (fillBuffer (cipherAt (t / 8) (clearBuffer s))) := by
  simp [reposition, h]

/-- Settles O50: a drain that falls short of `n` bytes leaves none (`readFromBuffer_rem`), and `READ_RAW` does not
touch the buffer (`readUnits_rem`); `SEEK` clears the buffer first (`clearBuffer_rem`). -/
theorem generationStartsOnADrainedBuffer : Obligations.GenerationStartsOnADrainedBuffer := by
  intro s n t hp hl
  rcases hd : readFromBuffer n s with ⟨d, afterDrain⟩
  rcases hr : readUnits ((n - d.length) / 8) afterDrain with ⟨raw, afterRaw⟩
  have hlen : d.length = min n s.rem := by rw [← readFromBuffer_length hl, hd]
  have hdrain : afterDrain.rem = s.rem - n := by rw [← readFromBuffer_rem hp hl, hd]
  have hraw : afterRaw.rem = afterDrain.rem := by rw [← readUnits_rem ((n - d.length) / 8) afterDrain, hr]
  have hempty : d.length < n → afterDrain.rem = 0 := fun h => by omega
  exact ⟨d, raw, afterDrain, afterRaw, _, rfl, by omega, hr, rfl, readCore_of_no_tail hd hr,
    readCore_of_tail hd hr, readCore_of_drained hd, fun h => ⟨hempty h, hraw.trans (hempty h)⟩,
    (reposition_of_aligned · s), (reposition_of_inside · s), (cipherAt_rem ..).trans (clearBuffer_rem s)⟩

end Sys2Proof.Machine
end

section
/-! The `READ` family (spec rules R170 to R178): what a resolved size that is served delivers, and what each of
the ways a read can end leaves in the buffer. -/

namespace Sys2Proof.Machine

/-- Settles O19: the size passes the checks (`exec_read_of`), and `deliver_spec` says what delivering does; the
stream space is a function of the key. -/
theorem readDeliversTheStream : Obligations.ReadDeliversTheStream := by
  intro s i n hr hinv hsize h0 hm
  obtain ⟨hout, hoff, hcons, hframe, hsink, hdraws⟩ := deliver_spec (hinv hr) h0 hm
  exact ⟨_, exec_read_of hr hsize h0 hm, hout, hoff, fun _ => hcons, hframe, hsink, hdraws,
    fun a m => by rw [hframe.key]⟩

/-! ### Served from the buffer -/

/-- The drain of a read that the buffer can serve takes the first `n` unconsumed bytes, and generates nothing
(R172, R175 (b)). -/
theorem readCore_of_le_rem {s : State} {n : Nat} (hl : s.bufLen.toNat ≤ 8) (hn : n ≤ s.rem) :
    readCore n s = (s.unconsumed.take n, advanceOffset n (readFromBuffer n s).2) := by
  have hlen := readFromBuffer_length hl n
  rw [readCore_of_drained Prod.mk.eta.symm (by omega), readFromBuffer_fst]

/-- A read within the buffer writes only the cursor and the position, modulo their widths (R153, R172). -/
theorem advanceOffset_readFromBuffer {s : State} {n : Nat} (hn : n ≤ s.rem) :
    advanceOffset n (readFromBuffer n s).2 =
      { s with bufPos := s.bufPos + BitVec.ofNat 4 n, offset := s.offset + BitVec.ofNat 64 n } := by
  simp [advanceOffset, readFromBuffer, bufferTake, Nat.min_eq_left hn, BitVec.ofNat_add]

/-- Settles O23: the read is the drain alone (`readCore_of_le_rem`), which moves the cursor and the position
(`advanceOffset_readFromBuffer`). -/
theorem readServedFromTheBuffer : Obligations.ReadServedFromTheBuffer := by
  intro s i n hr hinv hsize h0 hn hm
  have hl := (hinv hr).len_le
  have hne : s.unconsumed.take n ≠ [] := by
    rw [← List.length_pos_iff, List.length_take, unconsumed_length hl]
    omega
  rw [exec_read_of hr hsize h0 hm, deliver, readCore_of_le_rem hl hn, advanceOffset_readFromBuffer hn, respond,
    dataEvents_cons hne]
  rfl

/-! ### Past the buffer -/

/-- A read past the buffered bytes drains them all (R153). -/
theorem readFromBuffer_of_rem_lt {s : State} (h : s.Consistent) {n : Nat} (hn : s.rem < n) :
    (readFromBuffer n s).1.length = s.rem ∧ (readFromBuffer n s).2.bufPos = s.bufLen := by
  have hlen := readFromBuffer_length h.len_le n
  have hpos := readFromBuffer_bufPos_toNat h.pos h.len_le n
  have hend := h.pos_add_rem
  exact ⟨by omega, BitVec.eq_of_toNat_eq (by omega)⟩

/-- The whole units that a read past the buffer generates after the drain end `(n − rem) div 8` units further,
with the key and the drained buffer as they were (R133, R172). -/
theorem readUnits_after_drain {s : State} (h : s.Consistent) {n : Nat} (hn : s.rem < n)
    (hm : s.offset.toNat + n ≤ Config.offsetMax) {t : State}
    (ht : t = (readUnits ((n - s.rem) / 8) (readFromBuffer n s).2).2) :
    t.key = s.key ∧ t.nxt = s.nxt + (n - s.rem) / 8 ∧ t.buf = s.buf ∧ t.bufLen = s.bufLen ∧
      t.bufPos = s.bufLen := by
  have hnxt := h.nxt_le
  have hdrain : (readFromBuffer n s).2.nxt = s.nxt := rfl
  simp only [Config.offsetMax] at hm
  obtain ⟨-, hunits⟩ := readUnits_spec ((n - s.rem) / 8) (readFromBuffer n s).2 (by omega)
  obtain ⟨hframe, -, hbuf, hlen, hpos, -⟩ := readUnits_frame ((n - s.rem) / 8) (readFromBuffer n s).2
  subst ht
  exact ⟨hframe.key.symm, hunits, hbuf, hlen, hpos.trans (readFromBuffer_of_rem_lt h hn).2⟩

/-- A read past the buffer leaves, but for the position, what the drain, the whole units and the remainder
leave (R172). -/
theorem readCore_of_rem_lt {s : State} (h : s.Consistent) {n : Nat} (hn : s.rem < n) :
    ∃ k, (readCore n s).2 = advanceOffset k
      (readTail ((n - s.rem) % 8) (readUnits ((n - s.rem) / 8) (readFromBuffer n s).2).2).2 := by
  obtain ⟨hlen, -⟩ := readFromBuffer_of_rem_lt h hn
  rw [← hlen]
  exact ⟨_, rfl⟩

/-- Settles O24: without a remainder (`readTail_zero`) nothing follows the whole units, which do not touch the
buffer (`readUnits_after_drain`). -/
theorem readEndingOnUnitLeavesBufferDrained : Obligations.ReadEndingOnUnitLeavesBufferDrained := by
  intro s i n hr hinv hsize hn h8 hm
  obtain ⟨k, hcore⟩ := readCore_of_rem_lt (hinv hr) hn
  rw [h8, readTail_zero] at hcore
  obtain ⟨-, hnxt, hbuf, hlen, hpos⟩ := readUnits_after_drain (hinv hr) hn hm rfl
  refine ⟨_, exec_read_of hr hsize (by omega) hm, ?_⟩
  rw [deliver, hcore]
  exact ⟨hbuf, hlen, hpos, hnxt⟩

/-- Settles O25: the remainder comes from a unit loaded after the whole ones (`readTail_of_ne_zero`), which is unit
`(offset + n) div 8`, because `offset + rem` is where unit `nxt` starts. -/
theorem readEndingInsideUnitLeavesItBuffered : Obligations.ReadEndingInsideUnitLeavesItBuffered := by
  intro s i n hr hinv hsize hn h8 hm
  obtain ⟨k, hcore⟩ := readCore_of_rem_lt (hinv hr) hn
  rw [readTail_of_ne_zero h8] at hcore
  have hle := (hinv hr).nxt_le
  have haligned := (hinv hr).aligned
  generalize hu : (readUnits ((n - s.rem) / 8) (readFromBuffer n s).2).2 = u at hcore
  obtain ⟨hkey, hnxt, -⟩ := readUnits_after_drain (hinv hr) hn hm hu.symm
  have hunit : u.nxt = (s.offset.toNat + n) / 8 := by omega
  have hpos := readFromBuffer_bufPos_toNat (s := fillBuffer u) (by simp) (by simp) ((n - s.rem) % 8)
  have hctr := ctr_le_nxt u
  have hfill : (fillBuffer u).nxt = u.nxt + 1 :=
    fillBuffer_nxt u (by simp only [Config.offsetMax] at hm; omega)
  refine ⟨_, exec_read_of hr hsize (by omega) hm, ?_⟩
  rw [deliver, hcore, ← hunit, ← hkey, ← currentUnit_eq]
  refine ⟨rfl, rfl, hpos.trans ?_, hfill⟩
  rw [fillBuffer_bufPos, fillBuffer_rem, show (0 : BitVec 4).toNat = 0 from rfl]
  omega

end Sys2Proof.Machine
end

section
/-! The sizes that no byte is read for (spec rules R171 to R175, R215, R216): `READ` and `DUMP` look at the size
alike, so each case is one fact about `checkSize`. -/

namespace Sys2Proof.Machine

/-! ### The check, where it serves nothing -/

/-- A resolved size that is not positive passes the check as 0 (R172). -/
theorem checkSize_of_nonpos {s : State} {size : Option Nat} {n : Int} (hr : s.ready = true)
    (hs : resolveSize size s = .ok n) (hn : n ≤ 0) : checkSize size s = .ok 0 := by
  simp only [checkSize, hs, if_pos hr, if_pos hn]

/-- A resolved size that reaches beyond `OFFSET_MAX` is refused (R173). -/
theorem checkSize_of_beyond {s : State} {size : Option Nat} {n : Int} (hr : s.ready = true)
    (hs : resolveSize size s = .ok n) (h0 : 0 < n) (hn : (Config.offsetMax : Int) < s.offset.toNat + n) :
    checkSize size s = .error .invalidArgument := by
  simp only [checkSize, hs, if_pos hr, if_neg (not_le.2 h0), gt_iff_lt, if_pos hn]

/-- Without a bound an omitted size does not resolve (R171, R174). -/
theorem checkSize_none_of_no_bound {s : State} (hr : s.ready = true) (hv : s.maxValid = false) :
    checkSize none s = .error .invalidArgument := by
  have hs : resolveSize none s = .error .invalidArgument := by
    rw [resolveSize, hv, if_neg Bool.false_ne_true]
  simp only [checkSize, hs, if_pos hr]

/-! ### Both commands follow the check -/

theorem exec_readCommandOf (size : Option Nat) (s : State) :
    exec (readCommandOf size) s = .next (readCommand size s) := by
  cases size <;> rfl

theorem exec_dumpCommandOf (size : Option Nat) (s : State) :
    exec (dumpCommandOf size) s = .next (dumpCommand size s) := by
  cases size <;> rfl

/-- `READ` and `DUMP` of 0 bytes answer `OK`, 0 and touch nothing (R175 (a), R216 (a)). -/
theorem exec_of_checkSize_zero {s : State} {size : Option Nat} (h : checkSize size s = .ok 0) :
    exec (readCommandOf size) s = .next { s with out := s.out ++ [.resp ⟨.ok, 0⟩] } ∧
      exec (dumpCommandOf size) s = .next { s with out := s.out ++ [.resp ⟨.ok, 0⟩] } := by
  rw [exec_readCommandOf, exec_dumpCommandOf, readCommand, dumpCommand, h]
  exact ⟨rfl, rfl⟩

/-- `READ` and `DUMP` of a size that the check refuses are refused and touch nothing (R276). -/
theorem exec_of_checkSize_error {s : State} {size : Option Nat} {e : Status} (h : checkSize size s = .error e) :
    exec (readCommandOf size) s = .next { s with out := s.out ++ [.resp ⟨e, 0⟩] } ∧
      exec (dumpCommandOf size) s = .next { s with out := s.out ++ [.resp ⟨e, 0⟩] } := by
  rw [exec_readCommandOf, exec_dumpCommandOf, readCommand, dumpCommand, h]
  exact ⟨rfl, rfl⟩

/-- Settles O20: such a size passes the check as 0 (`checkSize_of_nonpos`). -/
theorem nonPositiveSizeTouchesNothing : Obligations.NonPositiveSizeTouchesNothing := by
  refine fun s hr => ⟨fun a ha => ?_, fun hv hb => ?_⟩
  · exact exec_of_checkSize_zero (checkSize_of_nonpos hr (resolveSize_some a s) ha)
  · exact exec_of_checkSize_zero (checkSize_of_nonpos hr (resolveSize_none hv) (by omega))

/-- Settles O21: the omitted size does not resolve (`checkSize_none_of_no_bound`). -/
theorem missingSizeIsRefused : Obligations.MissingSizeIsRefused :=
  fun _ hr hv => exec_of_checkSize_error (checkSize_none_of_no_bound hr hv)

/-- Settles O22: the check refuses such a size (`checkSize_of_beyond`). -/
theorem sizeBeyondLastPositionIsRefused : Obligations.SizeBeyondLastPositionIsRefused := by
  refine fun s n hr h0 hbeyond => ⟨fun a ha => ?_, fun hv hn => ?_⟩
  · exact exec_of_checkSize_error (checkSize_of_beyond hr (ha ▸ resolveSize_some a s) h0 hbeyond)
  · exact exec_of_checkSize_error (checkSize_of_beyond hr (hn ▸ resolveSize_none hv) h0 hbeyond)

end Sys2Proof.Machine
end

section
/-! A byte range read in pieces (spec rules R170, R175 (f)): each `READ` delivers the next piece of the stream, and
pieces that follow one another make up one. -/

namespace Sys2Proof.Machine

/-- The engine went from `s` to `t` by delivering, in one piece or several, the next `n` bytes of the stream. -/
structure Delivered (n : Nat) (s t : State) : Prop where
  key : t.key = s.key
  offset : t.offset.toNat = s.offset.toNat + n
  out : ∃ evs, t.out = s.out ++ evs ∧ doutBytes evs = memRead s.key s.offset.toNat n

theorem Delivered.refl (s : State) : Delivered 0 s s :=
  ⟨rfl, rfl, [], (List.append_nil _).symm, rfl⟩

theorem Delivered.trans {m n : Nat} {s t u : State} (h : Delivered m s t) (k : Delivered n t u) :
    Delivered (m + n) s u := by
  obtain ⟨hkey, hoff, evs, hout, hbytes⟩ := h
  obtain ⟨kkey, koff, evs', kout, kbytes⟩ := k
  refine ⟨kkey.trans hkey, by omega, evs ++ evs', by rw [kout, hout, List.append_assoc], ?_⟩
  rw [doutBytes_append, hbytes, kbytes, hkey, hoff, memRead_add]

/-- The step that takes a `READ` of `a` bytes, 0 allowed, that the bound does not cut: the next `a` bytes of the
stream, and the rest of the engine as it was (R170, R175 (a)). -/
theorem step_read_within {s : State} {a : Nat} {rest : List HostEvent} (hr : s.ready = true) (hinv : s.Inv)
    (hi : s.inbox = .command (encode (.read a)) :: rest) (hm : s.offset.toNat + a ≤ Config.offsetMax)
    (hb : s.maxValid = true → s.offset.toNat + a ≤ s.maxSize.toNat) :
    ∃ t, step s = .next t ∧ SameBut { s with inbox := rest } t ∧ t.Inv ∧ Delivered a s t := by
  have ha : a < 2 ^ 64 := by simp only [Config.offsetMax] at hm; omega
  have hsize : (a : Int) = if s.maxValid then min (a : Int) (s.maxSize.toNat - s.offset.toNat) else a := by
    split
    next hv => have := hb hv; omega
    next => rfl
  rcases Nat.eq_zero_or_pos a with rfl | h0
  · have hzero := checkSize_of_nonpos (s := { s with inbox := rest }) hr (resolveSize_some 0 _) hsize.symm.le
    have ht := (step_encoded (decode_encode_read ha) hi).trans (exec_of_checkSize_zero hzero).1
    exact ⟨_, ht, step_read_frame ha hi ht, inv_respond (inv_inbox hinv rest) .ok 0 [],
      ⟨rfl, rfl, _, rfl, rfl⟩⟩
  · obtain ⟨t, ht, -, hoff, htinv, hout⟩ := step_read hr (hinv hr) hi ha hsize h0 hm
    have hframe := step_read_frame ha hi ht
    exact ⟨t, ht, hframe, htinv, ⟨hframe.key.symm, hoff, _, hout, List.append_nil _⟩⟩

/-- Running a list of `READ`s delivers its sizes' sum (R175 (f)). -/
theorem runSteps_reads (sizes : List Nat) {s : State} {rest : List HostEvent} (hr : s.ready = true) (hinv : s.Inv)
    (hm : s.offset.toNat + sizes.sum ≤ Config.offsetMax)
    (hb : s.maxValid = true → s.offset.toNat + sizes.sum ≤ s.maxSize.toNat)
    (hi : s.inbox = sizes.map (fun n => HostEvent.command (encode (.read n))) ++ rest) :
    ∃ t, runSteps sizes.length s = some t ∧ t.inbox = rest ∧ Delivered sizes.sum s t := by
  induction sizes generalizing s with
  | nil => exact ⟨s, rfl, hi, .refl s⟩
  | cons a sizes ih =>
    rw [List.sum_cons] at hm hb
    obtain ⟨t, hstep, hframe, htinv, hread⟩ :=
      step_read_within hr hinv hi (by omega) fun hv => by have := hb hv; omega
    have hoff := hread.offset
    obtain ⟨u, hrun, hinbox, hreads⟩ :=
      ih (hframe.ready.symm.trans hr) htinv (by omega)
        (fun hv => by rw [← hframe.maxSize]; have := hb (hframe.maxValid.trans hv); simp only; omega)
        hframe.inbox.symm
    exact ⟨u, (runSteps_succ sizes.length hstep).trans hrun, hinbox, hread.trans hreads⟩

/-- Settles O26, by induction on the list of reads (`runSteps_reads`). -/
theorem splitReadsDeliverTheSameBytes : Obligations.SplitReadsDeliverTheSameBytes := by
  intro sizes s rest hr hinv hm hb hi
  obtain ⟨t, hrun, hinbox, -, hoff, evs, hout, hbytes⟩ := runSteps_reads sizes hr hinv hm hb hi
  exact ⟨t, hrun, hinbox, hoff, by rw [newEvents_of_out hout, hbytes]⟩

end Sys2Proof.Machine
end

section
/-! The `SEEK` family (spec rules R190 to R199): the target it resolves to, the registers it rebuilds from the key
and that target alone, and the bytes read after it. -/

namespace Sys2Proof.Machine

/-! ### The target, refused or reached -/

theorem seekTarget_fromEnd {s : State} (hv : s.maxValid = true) (a : Int) :
    seekTarget .fromEnd a s = .ok ((s.maxSize.toNat : Int) - a) := if_pos hv

/-- Without a bound a target relative to the end is not computed (R196). -/
theorem seekTarget_fromEnd_of_no_bound {s : State} (hv : s.maxValid = false) (a : Int) :
    seekTarget .fromEnd a s = .error .invalidOperation := by
  rw [seekTarget, hv, if_neg Bool.false_ne_true]

/-- A target that does not resolve is refused with the reason it does not (R196). -/
theorem seekCommand_of_unresolved {w : Whence} {a : Int} {s : State} {e : Status} (hr : s.ready = true)
    (hs : seekTarget w a s = .error e) : seekCommand w a s = raise e s := by
  simp only [seekCommand, checkTarget, hs, if_pos hr]

/-- A resolved target that is not a legal position is refused (R193). -/
theorem seekCommand_of_illegal {w : Whence} {a t : Int} {s : State} (hr : s.ready = true)
    (hs : seekTarget w a s = .ok t) (ht : t < 0 ∨ (Config.offsetMax : Int) < t) :
    seekCommand w a s = raise .invalidArgument s := by
  simp only [seekCommand, checkTarget, hs, if_pos hr, gt_iff_lt, if_pos ht]

/-- A resolved target that is a legal position is sought (R195). -/
theorem seekCommand_of_legal {w : Whence} {a : Int} {s : State} {t : Nat} (hr : s.ready = true)
    (hs : seekTarget w a s = .ok (t : Int)) (ht : t ≤ Config.offsetMax) :
    seekCommand w a s = respond .ok 0 [] (setOffset t (reposition t s)) := by
  rw [seekCommand, checkTarget_of hr hs ht]

/-- A `SEEK` that answered `OK` was not refused (R276). -/
theorem seekCommand_of_answered_ok {w : Whence} {a : Int} {s : State}
    (h : (seekCommand w a s).out = s.out ++ [.resp ⟨.ok, 0⟩]) :
    ∃ t, t ≤ Config.offsetMax ∧ seekTarget w a s = .ok (t : Int) ∧
      seekCommand w a s = respond .ok 0 [] (setOffset t (reposition t s)) := by
  rcases seekCommand_cases w a s with ⟨e, he, hraise⟩ | ⟨t, -, ht, hs, hseek⟩
  · rw [hraise, raise_out, List.append_cancel_left_eq] at h
    cases h
    cases he
  · exact ⟨t, ht, hs, hseek⟩

/-- Settles O28: each target resolves to the integer of R191 and is refused (`seekCommand_of_illegal`), or does not
resolve (`seekTarget_fromEnd_of_no_bound`); a refusal writes nothing but its answer. -/
theorem illegalSeekIsRefused : Obligations.IllegalSeekIsRefused := by
  refine fun s a hr => ⟨fun ht => ?set, fun ht => ?cur, fun hv ht => ?fromEnd, fun hv => ?noBound⟩
  case set => exact congrArg _ (seekCommand_of_illegal (w := .set) hr rfl ht)
  case cur => exact congrArg _ (seekCommand_of_illegal (w := .cur) hr rfl ht)
  case fromEnd => exact congrArg _ (seekCommand_of_illegal hr (seekTarget_fromEnd hv a) ht)
  case noBound => exact congrArg _ (seekCommand_of_unresolved hr (seekTarget_fromEnd_of_no_bound hv a))

/-! ### What `SEEK` rebuilds -/

/-- `nxt` determines the cipher context (R31). -/
theorem ctr_half_of_nxt {s : State} {u : Nat} (h : s.nxt = u) : s.ctr.toNat = u / 2 ∧ s.half = (u % 2 == 1) := by
  simp only [State.nxt, Config.ctrInit] at h
  cases hb : s.half <;> simp only [hb, Bool.toNat_false, Bool.toNat_true] at h
  case false => exact ⟨by omega, .symm (beq_eq_false_iff_ne.2 (by omega))⟩
  case true => exact ⟨by omega, .symm (beq_iff_eq.2 (by omega))⟩

/-- Settles O27: the target passes the checks (`exec_seek_of`), `INV` is `seekTo_consistent`, the rest of the engine
`seekTo_frame`, and the two alignments are `reposition_aligned` and `reposition_inside`. -/
theorem seekRebuildsForTheTarget : Obligations.SeekRebuildsForTheTarget := by
  intro s i t hr ht hi
  have hframe := seekTo_frame t s
  obtain ⟨-, hports, -⟩ := reposition_frame t s
  refine ⟨_, exec_seek_of hr hi ht, seekTo_offset s ht, fun _ => seekTo_consistent s ht, fun h => ?aligned,
    fun h => ?inside, seekTo_out t s, hframe, hports.sinkIn.symm, hports.draws.symm,
    fun a m => by rw [hframe.key]⟩
  case aligned =>
    have hnxt : (cipherAt (t / 8) (clearBuffer s)).nxt = t / 8 :=
      cipherAt_nxt _ _ (by simp only [Config.offsetMax] at ht; omega)
    obtain ⟨hctr, hhalf⟩ := ctr_half_of_nxt hnxt
    rw [reposition_of_aligned h]
    exact ⟨hctr.trans (Nat.div_div_eq_div_mul ..), hhalf, rfl, rfl, rfl⟩
  case inside =>
    obtain ⟨hbuf, hlen, hpos, hnxt⟩ := reposition_inside (s := s) h ht
    obtain ⟨hctr, hhalf⟩ := ctr_half_of_nxt hnxt
    exact ⟨hctr, hhalf, hbuf, hlen, hpos⟩

/-- The cipher context and the buffer are rebuilt from the key and the target alone (R190). -/
theorem reposition_congr {s s' : State} (hk : s.key = s'.key) (t : Nat) :
    (reposition t s).ctr = (reposition t s').ctr ∧ (reposition t s).half = (reposition t s').half ∧
      (reposition t s).buf = (reposition t s').buf ∧ (reposition t s).bufLen = (reposition t s').bufLen ∧
      (reposition t s).bufPos = (reposition t s').bufPos := by
  by_cases h : t % 8 = 0
  · rw [reposition_of_aligned h, reposition_of_aligned h]
    exact ⟨rfl, rfl, rfl, rfl, rfl⟩
  · have hunit : currentUnit (cipherAt (t / 8) (clearBuffer s)) =
        currentUnit (cipherAt (t / 8) (clearBuffer s')) := by
      simp only [currentUnit, cipherAt_key, clearBuffer_key, cipherAt_ctr, cipherAt_half, hk]
    rw [reposition_of_inside h, reposition_of_inside h]
    exact ⟨rfl, rfl, hunit, rfl, rfl⟩

/-- Settles O29: the target resolves alike on both engines, so the second seeks it too (`seekCommand_of_legal`), and
what is rebuilt depends on the key and that target (`reposition_congr`). -/
theorem seekForgetsTheHistory : Obligations.SeekForgetsTheHistory := by
  intro i s s' t t' a _ hr' hk hi he he' hout
  obtain ⟨w, hw, hw', htarget⟩ : ∃ w, exec i s = .next (seekCommand w a s) ∧
      exec i s' = .next (seekCommand w a s') ∧ seekTarget w a s' = seekTarget w a s := by
    rcases hi with rfl | ⟨rfl, ho⟩ | ⟨rfl, hv, hv', hm⟩
    · exact ⟨.set, rfl, rfl, rfl⟩
    · exact ⟨.cur, rfl, rfl, by rw [seekTarget, seekTarget, ho]⟩
    · exact ⟨.fromEnd, rfl, rfl, by rw [seekTarget_fromEnd hv, seekTarget_fromEnd hv', hm]⟩
  cases hw.symm.trans he
  cases hw'.symm.trans he'
  obtain ⟨p, hp, hs, hseek⟩ := seekCommand_of_answered_ok hout
  rw [hseek, seekCommand_of_legal hr' (htarget.trans hs) hp]
  exact ⟨seekTo_out p s', rfl, reposition_congr hk p⟩

/-! ### Reading after a `SEEK` -/

/-- `step_read` for a size that the bound does not cut, with the frame of the command (R39, R170, R171). -/
theorem step_read_uncut {s : State} {a : Nat} {rest : List HostEvent} (hr : s.ready = true) (hinv : s.Inv)
    (hi : s.inbox = .command (encode (.read a)) :: rest) (h0 : 0 < a)
    (hm : s.offset.toNat + a ≤ Config.offsetMax)
    (hb : s.maxValid = true → s.offset.toNat + a ≤ s.maxSize.toNat) :
    ∃ u, step s = .next u ∧ SameBut { s with inbox := rest } u ∧ u.Inv ∧
      u.offset.toNat = s.offset.toNat + a ∧
      u.out = s.out ++ [.dout (memRead s.key s.offset.toNat a), .resp ⟨.ok, BitVec.ofNat 64 a⟩] := by
  have ha : a < 2 ^ 64 := by simp only [Config.offsetMax] at hm; omega
  have hsize : (a : Int) = if s.maxValid then min (a : Int) (s.maxSize.toNat - s.offset.toNat) else a := by
    split
    next hv => have := hb hv; omega
    next => rfl
  obtain ⟨u, hstep, -, hoff, huinv, hout⟩ := step_read hr (hinv hr) hi ha hsize h0 hm
  exact ⟨u, hstep, step_read_frame ha hi hstep, huinv, hoff, hout⟩

/-- After a command that put the position on `t`, a `READ` of `n` bytes delivers `S[t .. t + n)`, whichever command
that was (R33, R190). -/
theorem read_after_move {s p : State} {t n : Nat} {rest : List HostEvent} {evs : List PortEvent}
    (hr : s.ready = true) (h0 : 0 < n) (hm : t + n ≤ Config.offsetMax)
    (hb : s.maxValid = true → t + n ≤ s.maxSize.toNat) (hinv : p.Inv) (hoff : p.offset.toNat = t)
    (hf : SameBut { s with inbox := .command (encode (.read n)) :: rest } p) (hout : p.out = s.out ++ evs) :
    ∃ u, step p = .next u ∧
      u.out = s.out ++ (evs ++ [.dout (memRead s.key t n), .resp ⟨.ok, BitVec.ofNat 64 n⟩]) := by
  subst hoff
  obtain ⟨u, hstep, -, -, -, huout⟩ :=
    step_read_uncut (hf.ready.symm.trans hr) hinv hf.inbox.symm h0 hm
      fun hv => (hb (hf.maxValid.trans hv)).trans_eq (congrArg BitVec.toNat hf.maxSize)
  exact ⟨u, hstep, by rw [huout, hout, ← hf.key, List.append_assoc]⟩

/-- Settles O31: `SEEK t` and, from position 0, `READ t` both put the position on `t` with `INV`, and the next `READ`
delivers the same bytes after either (`read_after_move`). -/
theorem seekReadParity : Obligations.SeekReadParity := by
  intro s t n rest hr hinv hs0 ht0 hn0 hm hb
  have hstart : s.offset.toNat = 0 := by rw [hs0]; rfl
  have ht : t ≤ Config.offsetMax := by omega
  obtain ⟨p, hseek, -, hpoff, hpcons, hpframe, hpout⟩ :=
    step_seekSet (s := { s with
      inbox := .command (encode (.seekSet t)) :: .command (encode (.read n)) :: rest }) hr rfl ht
  obtain ⟨q, hskip, hqframe, hqinv, hqoff, hqout⟩ :=
    step_read_uncut (s := { s with inbox := .command (encode (.read t)) :: .command (encode (.read n)) :: rest })
      hr (inv_inbox hinv _) rfl ht0 (by simp only; omega) (fun hv => by have := hb hv; simp only; omega)
  obtain ⟨u, hread, huout⟩ := read_after_move hr hn0 hm hb (fun _ => hpcons) hpoff hpframe hpout
  obtain ⟨v, hread', hvout⟩ :=
    read_after_move hr hn0 hm hb hqinv (hqoff.trans (by simp only; omega)) hqframe hqout
  refine ⟨u, v, _, _, ?_, ?_, huout, hvout, memRead_length .., memRead_length ..⟩
  · rw [runSteps_succ 1 hseek, runSteps_succ 0 hread]; rfl
  · rw [runSteps_succ 1 hskip, runSteps_succ 0 hread']; rfl

end Sys2Proof.Machine
end

section
/-! `TELL` and the `DUMP` family (spec rules R210 to R217): a `DUMP` that is not refused is its loop, whose two
endings `dumpLoop_cases` gives; here they are read off for the sink's answers. -/

namespace Sys2Proof.Machine

/-! ### `TELL` -/

/-- Settles O32: the answer and the refusal of `TELL` write nothing but their response. -/
theorem tellAnswersThePosition : Obligations.TellAnswersThePosition := by
  refine fun s => ⟨fun hr => ?_, exec_tell_of_not_ready⟩
  rw [exec_tell_of_ready hr, respond_nil, BitVec.ofNat_toNat, BitVec.setWidth_eq]

/-! ### The chunks of a `DUMP` -/

/-- Chunk `j` exists when its first byte is one of the `n` (R306). -/
theorem lt_chunkCount_iff {n j : Nat} : j < chunkCount n ↔ Config.dumpChunk * j < n := by
  simp only [chunkCount, Config.dumpChunk]; omega

@[simp] theorem dumpChunkBytes_length (key : Key) (a n j : Nat) :
    (dumpChunkBytes key a n j).length = min Config.dumpChunk (n - Config.dumpChunk * j) :=
  memRead_length ..

/-- A chunk that exists has a byte (R213). -/
theorem dumpChunkBytes_ne_nil {n j : Nat} (h : j < chunkCount n) (key : Key) (a : Nat) :
    dumpChunkBytes key a n j ≠ [] := by
  have hj := lt_chunkCount_iff.1 h
  have hpos : 0 < Config.dumpChunk := by decide
  exact List.ne_nil_of_length_pos (by rw [dumpChunkBytes_length]; omega)

/-- The chunks of a `DUMP` of `n` bytes together are the bytes a `READ` of `n` would deliver (R213). -/
theorem allChunks_flatten (key : Key) (a n : Nat) :
    ((List.range (chunkCount n)).map (dumpChunkBytes key a n)).flatten = memRead key a n := by
  rw [dumpChunks_flatten, min_dumpChunk_chunkCount]

/-- The chunks before one that exists are full (R213). -/
theorem chunksBefore_flatten {n k : Nat} (hk : k < chunkCount n) (key : Key) (a : Nat) :
    ((List.range k).map (dumpChunkBytes key a n)).flatten = memRead key a (Config.dumpChunk * k) := by
  rw [dumpChunks_flatten, Nat.min_eq_right (lt_chunkCount_iff.1 hk).le]

/-- The transfers of the first `m` chunks are the chunks, each with the answer `ok` (R212). -/
theorem acceptedChunks_first (key : Key) (a n m : Nat) :
    acceptedChunks key a n 0 m =
      ((List.range m).map (dumpChunkBytes key a n)).map fun c => PortEvent.sinkWrite c .ok := by
  simp [acceptedChunks]

/-! ### How a `DUMP` ends -/

/-- A `DUMP` of either form with resolved size `n` that is not refused keeps `INV` and its frame, and either runs
to its end or stops at a chunk that exists (R213, R215, R306). -/
theorem exec_dump_cases {s : State} {i : Instr} {n : Nat} (hr : s.ready = true) (hinv : s.Inv)
    (hi : (∃ a : Nat, i = .dump a ∧
        (n : Int) = if s.maxValid then min (a : Int) (s.maxSize.toNat - s.offset.toNat) else a) ∨
      (i = .dumpAll ∧ s.maxValid = true ∧ (n : Int) = s.maxSize.toNat - s.offset.toNat))
    (hm : s.offset.toNat + n ≤ Config.offsetMax) :
    ∃ t, exec i s = .next t ∧ t.Inv ∧ SameBut s t ∧
      (DumpDone s.offset.toNat n 0 (chunkCount n) s t ∨
        ∃ k, k < chunkCount n ∧ DumpFailed s.offset.toNat n 0 k s t) := by
  obtain ⟨hcons, hframe, hend⟩ :=
    dumpLoop_cases hm (chunkCount n) 0 s (hinv hr) (Nat.zero_add _) (by simp)
  exact ⟨_, exec_dump_of hr hi hm, fun _ => hcons, hframe, hend⟩

/-- A loop that ran to its end sent the sink every chunk, accepted, and answered `OK`, `n` (R213). -/
theorem DumpDone.out_eq {a n m : Nat} {s t : State} (h : DumpDone a n 0 m s t) :
    t.out = s.out ++ ((List.range m).map (dumpChunkBytes s.key a n)).map (fun c => PortEvent.sinkWrite c .ok) ++
      [.resp ⟨.ok, BitVec.ofNat 64 n⟩] := by
  rw [h.out, acceptedChunks_first]

/-- A loop that stopped at chunk `k` sent the sink the `k` chunks before it, accepted, then that chunk, and answered
`IOFailure` (R215). -/
theorem DumpFailed.out_eq {a n k : Nat} {s t : State} (h : DumpFailed a n 0 k s t) :
    t.out = s.out ++ ((List.range k).map (dumpChunkBytes s.key a n)).map (fun c => PortEvent.sinkWrite c .ok) ++
      [.sinkWrite (dumpChunkBytes s.key a n k) .fail,
        .resp ⟨.ioFailure, BitVec.ofNat 64 (Config.dumpChunk * k)⟩] := by
  rw [h.out, acceptedChunks_first, Nat.zero_add]

/-- Settles O33: with `⌈n / 65536⌉` answers `ok` placed the loop cannot stop early (`DumpFailed.noOk`). -/
theorem acceptedDumpWritesTheStream : Obligations.AcceptedDumpWritesTheStream := by
  intro s i n later hr hinv hi _ hm hsink
  obtain ⟨t, hexec, htinv, hframe, hdone | ⟨k, hk, hfailed⟩⟩ := exec_dump_cases hr hinv hi hm
  case inl =>
    obtain ⟨hlater, hdraws⟩ := hdone.sink later hsink
    refine ⟨t, _, hexec, rfl, allChunks_flatten .., fun c hc => ?chunk, hdone.out_eq, hdone.offset, htinv, hlater,
      hframe, hdraws, fun a m => by rw [hframe.key]⟩
    case chunk =>
      obtain ⟨j, hj, rfl⟩ := List.mem_map.1 hc
      exact ⟨dumpChunkBytes_ne_nil (List.mem_range.1 hj) _ _,
        (dumpChunkBytes_length ..).trans_le (Nat.min_le_left ..)⟩
  case inr => exact absurd (hfailed.noOk _ later hsink) (Nat.not_le.2 hk)

/-- Settles O34: the loop cannot run past the `fail` (`DumpDone.noFail`), and where it stopped is the place of the
`fail` among the answers (`DumpFailed.sink`). -/
theorem failedDumpStopsPastTheFailedChunk : Obligations.FailedDumpStopsPastTheFailedChunk := by
  intro s i n k later hr hinv hi hm hkn hsink
  obtain ⟨t, hexec, htinv, hframe, hdone | ⟨k', -, hfailed⟩⟩ := exec_dump_cases hr hinv hi hm
  case inl => exact absurd hsink (hdone.noFail k later (lt_chunkCount_iff.2 hkn))
  case inr =>
    obtain ⟨rfl, hlater, hdraws⟩ := hfailed.sink k later hsink
    have hout := hfailed.out_eq
    rw [List.map_map] at hout
    have hoff := hfailed.offset
    rw [Nat.zero_add] at hoff
    exact ⟨t, hexec, hout, hoff, htinv, hlater, hframe, hdraws⟩

/-- Settles O35: the two endings of the loop, whose chunks are pieces of the stream one after another
(`allChunks_flatten`, `chunksBefore_flatten`). -/
theorem dumpCompletesWhateverTheSinkAnswers : Obligations.DumpCompletesWhateverTheSinkAnswers := by
  intro s i n hr hinv hi _ hm
  obtain ⟨t, hexec, htinv, hframe, hdone | ⟨k, hk, hfailed⟩⟩ := exec_dump_cases hr hinv hi hm
  case inl =>
    refine ⟨t, (List.range (chunkCount n)).map (dumpChunkBytes s.key s.offset.toNat n), [], hexec, htinv, hframe, ?_⟩
    rw [allChunks_flatten, memRead_length]
    exact ⟨rfl, .inl ⟨rfl, rfl, hdone.offset, hdone.out_eq⟩⟩
  case inr =>
    have hkn := lt_chunkCount_iff.1 hk
    have hoff := hfailed.offset
    rw [Nat.zero_add, Nat.mul_succ] at hoff
    refine ⟨t, (List.range k).map (dumpChunkBytes s.key s.offset.toNat n),
      dumpChunkBytes s.key s.offset.toNat n k, hexec, htinv, hframe, ?_⟩
    rw [chunksBefore_flatten hk, memRead_length, dumpChunkBytes_length]
    exact ⟨rfl, .inr ⟨dumpChunkBytes_ne_nil hk _ _, by omega, rfl, by omega, hfailed.out_eq⟩⟩

end Sys2Proof.Machine
end

section
/-! The key schedule of AES-256 (spec rules R233, R235): it is read from the back, where the list built newest word
first has the word of each step at its head. -/

namespace Sys2Proof.Machine

theorem scheduleRev_length (key : Key) (n : Nat) : (scheduleRev key n).length = n + 8 := by
  induction n with
  | zero => rfl
  | succ n ih => rw [scheduleRev, List.length_cons, ih, Nat.add_right_comm]

theorem keyExpansion_length (key : Key) : (keyExpansion key).length = 60 := by
  rw [keyExpansion, List.length_reverse, scheduleRev_length]

/-- Later steps only add words in front (R235). -/
theorem scheduleRev_drop (key : Key) (n k : Nat) : (scheduleRev key (n + k)).drop k = scheduleRev key n := by
  induction k with
  | zero => rfl
  | succ k ih => rw [← Nat.add_assoc, scheduleRev, List.drop_succ_cons, ih]

/-- The eight newest words after `n` steps are words `n .. n + 7` of the schedule, the newest first (R235). -/
theorem keyExpansion_getElem? (key : Key) {n j : Nat} (hn : n ≤ 52) (hj : j < 8) :
    (keyExpansion key)[n + 7 - j]? = some ((scheduleRev key n).getD j 0) := by
  have hrev : 60 - 1 - (n + 7 - j) = 52 - n + j := by omega
  have hlen : j < (scheduleRev key n).length := by rw [scheduleRev_length]; omega
  rw [keyExpansion, List.getElem?_reverse (by rw [scheduleRev_length]; omega), scheduleRev_length, hrev,
    ← List.getElem?_drop, List.getD_eq_getElem _ _ hlen, ← List.getElem?_eq_getElem hlen,
    ← scheduleRev_drop key n (52 - n), Nat.add_sub_cancel' hn]

/-- Word `i < 8` of the schedule is key word `i` (R233). -/
theorem keyExpansion_keyWord (key : Key) {i : Nat} (hi : i < 8) :
    (keyExpansion key)[i]? = some (keyWord key i) := by
  have h := keyExpansion_getElem? key (Nat.zero_le 52) (show 7 - i < 8 by omega)
  rw [show 0 + 7 - (7 - i) = i by omega] at h
  rw [h]
  interval_cases i <;> rfl

/-- The bytes of a number, without the first `k` and the last `n` (R12). -/
theorem take_drop_be (k m n v : Nat) : ((be (k + (m + n)) v).drop k).take m = be m (v / 256 ^ n) := by
  rw [be_add, List.drop_left' (be_length ..), be_add, List.take_left' (be_length ..)]

/-- Key word `i` is key bytes `4i .. 4i + 3` in order (R233). -/
theorem be_keyWord (key : Key) {i : Nat} (hi : i < 8) :
    be 4 (keyWord key i).toNat = ((be 32 key.toNat).drop (4 * i)).take 4 := by
  have hpow : 2 ^ (32 * (7 - i)) = 256 ^ (4 * (7 - i)) := by
    rw [show 32 * (7 - i) = 8 * (4 * (7 - i)) by omega, pow_mul]; norm_num
  have hlen : 4 * i + (4 + 4 * (7 - i)) = 32 := by omega
  have hbytes := take_drop_be (4 * i) 4 (4 * (7 - i)) key.toNat
  rw [hlen] at hbytes
  rw [hbytes, keyWord, BitVec.extractLsb'_toNat, Nat.shiftRight_eq_div_pow, hpow]
  exact be_mod 4 _

/-- Settles O51: word `n + 8` is what step `n` puts in front of words `n .. n + 7`. -/
theorem keyScheduleRecurrence : Obligations.KeyScheduleRecurrence := by
  refine fun key => ⟨keyExpansion_length key, fun i hi => ⟨_, keyExpansion_keyWord key hi, be_keyWord key hi⟩, ?_⟩
  intro i h8 h60
  obtain ⟨n, rfl⟩ := Nat.exists_eq_add_of_le' h8
  have hn : n + 1 ≤ 52 := by omega
  exact ⟨_, _, _, keyExpansion_getElem? key hn (j := 0) (by decide),
    keyExpansion_getElem? key (Nat.le_of_succ_le hn) (j := 0) (by decide),
    keyExpansion_getElem? key (Nat.le_of_succ_le hn) (j := 7) (by decide), rfl⟩

end Sys2Proof.Machine
end

section
/-! The S-box (spec rules R231, R234): the table's entries, undone by the inverse affine map, are the inverses in the
field. -/

namespace Sys2Proof.Machine

/-- The affine map of R234: bit `i` of a rotation by `8 - k` places is bit `i + k` modulo 8 of the byte. -/
def affineMap (b : Byte) : Byte :=
  b ^^^ b.rotateLeft 4 ^^^ b.rotateLeft 3 ^^^ b.rotateLeft 2 ^^^ b.rotateLeft 1 ^^^ 0x63#8

/-- The inverse of the affine map, again a sum of rotations and a constant. -/
def affineUnmap (a : Byte) : Byte :=
  a.rotateLeft 1 ^^^ a.rotateLeft 3 ^^^ a.rotateLeft 6 ^^^ 0x05#8

/-- The inverse in the field, 0 for 0, read off the S-box; `fieldMul_fieldInv` says that it is the inverse. -/
def fieldInv (a : Byte) : Byte :=
  affineUnmap (sbox a)

theorem affineMap_getLsbD (b : Byte) {i : Nat} (hi : i < 8) : (affineMap b).getLsbD i =
    (b.getLsbD i ^^ b.getLsbD ((i + 4) % 8) ^^ b.getLsbD ((i + 5) % 8) ^^ b.getLsbD ((i + 6) % 8) ^^
      b.getLsbD ((i + 7) % 8) ^^ (0x63#8).getLsbD i) := by
  simp only [affineMap, BitVec.getLsbD_xor]
  interval_cases i <;> simp

theorem affineMap_affineUnmap : ∀ a : Byte, affineMap (affineUnmap a) = a := by decide

/-- The 255 products of R231 that make the table one of inverses (R234). -/
theorem fieldMul_fieldInv : ∀ a : Byte, a ≠ 0 → fieldMul a (fieldInv a) = 1 := by decide

theorem fieldInv_fieldInv : ∀ a : Byte, fieldInv (fieldInv a) = a := by decide

theorem fieldInv_zero : fieldInv 0 = 0 := by decide

/-- Settles O53: the inverse affine map undoes the affine map, so the table's entry is the affine map of
`fieldInv a`. -/
theorem sboxIsTheAffineMapOfTheInverse : Obligations.SboxIsTheAffineMapOfTheInverse := by
  refine fun a => ⟨fieldInv a, fun h => h ▸ fieldInv_zero, fieldMul_fieldInv a, fun i hi => ?_⟩
  rw [← affineMap_getLsbD _ hi, fieldInv, affineMap_affineUnmap]

/-- The S-box is a permutation, because inversion in the field is its own inverse (R234). -/
theorem sbox_injective : Function.Injective sbox :=
  Function.Injective.of_comp (f := affineUnmap) (Function.LeftInverse.injective fieldInv_fieldInv)

end Sys2Proof.Machine
end

section
/-! AES-256 encryption of one block is a bijection (spec rule R238): each transformation of R236 is injective, hence
so are the rounds of R237, and a block has finitely many values. -/

namespace Sys2Proof.Machine

/-! ### Rows of four equal parts: words of four bytes, blocks of four columns -/

/-- A row of four equal parts is its four parts put in a row (R11). -/
theorem append_extract_four {n : Nat} (x : BitVec (n + n + n + n)) :
    x.extractLsb' (n + n + n) n ++ x.extractLsb' (n + n) n ++ x.extractLsb' n n ++ x.extractLsb' 0 n = x := by
  rw [BitVec.extractLsb'_append_extractLsb'_eq_extractLsb' rfl,
    BitVec.extractLsb'_append_extractLsb'_eq_extractLsb' rfl,
    BitVec.extractLsb'_append_extractLsb'_eq_extractLsb' (Nat.zero_add n).symm]
  exact BitVec.extractLsb'_eq_self

/-- Each of four equal parts put in a row stands at its own place (R11). -/
theorem extract_append_four {n : Nat} (a b c d : BitVec n) :
    (a ++ b ++ c ++ d).extractLsb' (n + n + n) n = a ∧ (a ++ b ++ c ++ d).extractLsb' (n + n) n = b ∧
      (a ++ b ++ c ++ d).extractLsb' n n = c ∧ (a ++ b ++ c ++ d).extractLsb' 0 n = d := by
  simp [BitVec.extractLsb'_append_eq_of_le, BitVec.extractLsb'_append_eq_right]

theorem wordOfBytes_wordByte (w : Word32) :
    wordOfBytes (wordByte w 0) (wordByte w 1) (wordByte w 2) (wordByte w 3) = w :=
  append_extract_four (n := 8) w

@[simp] theorem wordByte_wordOfBytes_zero (a b c d : Byte) : wordByte (wordOfBytes a b c d) 0 = a :=
  (extract_append_four a b c d).1
@[simp] theorem wordByte_wordOfBytes_one (a b c d : Byte) : wordByte (wordOfBytes a b c d) 1 = b :=
  (extract_append_four a b c d).2.1
@[simp] theorem wordByte_wordOfBytes_two (a b c d : Byte) : wordByte (wordOfBytes a b c d) 2 = c :=
  (extract_append_four a b c d).2.2.1
@[simp] theorem wordByte_wordOfBytes_three (a b c d : Byte) : wordByte (wordOfBytes a b c d) 3 = d :=
  (extract_append_four a b c d).2.2.2

theorem aesStore_aesLoad (b : Block) : aesStore (aesLoad b) = b :=
  append_extract_four (n := 32) b

theorem aesLoad_aesStore (s : AesState) : aesLoad (aesStore s) = s := by
  obtain ⟨h0, h1, h2, h3⟩ := extract_append_four s.c0 s.c1 s.c2 s.c3
  exact congr (congr (congr (congrArg AesState.mk h0) h1) h2) h3

/-! ### Transformations of the columns, each by itself: `SubBytes`, `MixColumns`, `AddRoundKey` -/

theorem columns_injective {f0 f1 f2 f3 : Word32 → Word32} (h0 : Function.Injective f0)
    (h1 : Function.Injective f1) (h2 : Function.Injective f2) (h3 : Function.Injective f3) :
    Function.Injective fun s : AesState => AesState.mk (f0 s.c0) (f1 s.c1) (f2 s.c2) (f3 s.c3) := by
  rintro ⟨⟩ ⟨⟩ h
  simpa only [AesState.mk.injEq, h0.eq_iff, h1.eq_iff, h2.eq_iff, h3.eq_iff] using h

theorem subWord_injective : Function.Injective subWord := by
  intro v w h
  have hbyte (i : Nat) := congrArg (wordByte · i) h
  have e0 := sbox_injective (by simpa [subWord] using hbyte 0)
  have e1 := sbox_injective (by simpa [subWord] using hbyte 1)
  have e2 := sbox_injective (by simpa [subWord] using hbyte 2)
  have e3 := sbox_injective (by simpa [subWord] using hbyte 3)
  rw [← wordOfBytes_wordByte v, e0, e1, e2, e3, wordOfBytes_wordByte]

theorem subBytes_injective : Function.Injective subBytes :=
  columns_injective subWord_injective subWord_injective subWord_injective subWord_injective

theorem word_xor_injective (k : Word32) : Function.Injective (· ^^^ k) :=
  fun _ _ => (BitVec.xor_left_inj k).1

theorem addRoundKey_injective (ws : List Word32) (k : Nat) : Function.Injective (addRoundKey ws k) :=
  columns_injective (word_xor_injective _) (word_xor_injective _) (word_xor_injective _) (word_xor_injective _)

/-! ### `MixColumns`: the matrix of R236 has order 4 -/

theorem byte_xor_left_comm (a b c : Byte) : a ^^^ (b ^^^ c) = b ^^^ (a ^^^ c) := by
  ac_rfl

theorem xtime_eq (a : Byte) : xtime a = a <<< 1 ^^^ (if a.msb then 0x1b#8 else 0#8) := by
  rw [xtime, BitVec.msb_eq_decide]
  by_cases h : a.toNat < 0x80
  · simp [h, Nat.not_le.2 h]
  · simp [h, Nat.not_lt.1 h]

/-- Multiplication by `x` is additive (R231). -/
theorem xtime_xor (a b : Byte) : xtime (a ^^^ b) = xtime a ^^^ xtime b := by
  simp only [xtime_eq, BitVec.msb_xor, BitVec.shiftLeft_xor_distrib]
  cases a.msb <;> cases b.msb <;> simp [BitVec.xor_assoc, BitVec.xor_comm, byte_xor_left_comm]

/-- Row 0 of `MixColumns`, `02•a ⊕ 03•b ⊕ c ⊕ d`; the other rows are the same sum of the bytes taken in turn
(R236, `mixColumn_wordOfBytes`). -/
def mixRow (a b c d : Byte) : Byte :=
  xtime (a ^^^ b) ^^^ (b ^^^ c ^^^ d)

/-- Row 0 of `MixColumns` done twice: the matrix squared has row 0 `05, 00, 04, 00` (`mixRow_mixRow`). -/
def mixRowTwice (a c : Byte) : Byte :=
  a ^^^ xtime (xtime (a ^^^ c))

theorem mixColumn_wordOfBytes (a b c d : Byte) : mixColumn (wordOfBytes a b c d) =
    wordOfBytes (mixRow a b c d) (mixRow b c d a) (mixRow c d a b) (mixRow d a b c) := by
  simp [mixColumn, mixBytes, mixRow, triple, xtime_xor, BitVec.xor_assoc, BitVec.xor_comm, byte_xor_left_comm]

theorem mixRow_mixRow (a b c d : Byte) :
    mixRow (mixRow a b c d) (mixRow b c d a) (mixRow c d a b) (mixRow d a b c) = mixRowTwice a c := by
  have hab : mixRow a b c d ^^^ mixRow b c d a = xtime (a ^^^ c) ^^^ (a ^^^ b) := by
    simp [mixRow, xtime_xor, BitVec.xor_assoc, BitVec.xor_comm, byte_xor_left_comm]
  have hbcd : mixRow b c d a ^^^ mixRow c d a b ^^^ mixRow d a b c = xtime (a ^^^ b) ^^^ a := by
    simp [mixRow, xtime_xor, BitVec.xor_assoc, BitVec.xor_comm, byte_xor_left_comm]
  rw [mixRow, hab, hbcd]
  simp [mixRowTwice, xtime_xor, BitVec.xor_assoc, BitVec.xor_comm, byte_xor_left_comm]

theorem mixRowTwice_mixRowTwice (a c : Byte) : mixRowTwice (mixRowTwice a c) (mixRowTwice c a) = a := by
  simp [mixRowTwice, xtime_xor, BitVec.xor_assoc, BitVec.xor_comm]

theorem mixColumn_four_times (w : Word32) : mixColumn (mixColumn (mixColumn (mixColumn w))) = w := by
  rw [← wordOfBytes_wordByte w]
  simp only [mixColumn_wordOfBytes, mixRow_mixRow, mixRowTwice_mixRowTwice]

theorem mixColumn_injective : Function.Injective mixColumn :=
  Function.LeftInverse.injective (g := mixColumn ∘ mixColumn ∘ mixColumn) mixColumn_four_times

theorem mixColumns_injective : Function.Injective mixColumns :=
  columns_injective mixColumn_injective mixColumn_injective mixColumn_injective mixColumn_injective

/-! ### `ShiftRows`, the rounds and the cipher -/

/-- Row `r` has been rotated left by `4r` places (R236). -/
theorem shiftRows_four_times (s : AesState) : shiftRows (shiftRows (shiftRows (shiftRows s))) = s := by
  simp [shiftRows, shiftColumn, wordOfBytes_wordByte]

theorem shiftRows_injective : Function.Injective shiftRows :=
  Function.LeftInverse.injective (g := shiftRows ∘ shiftRows ∘ shiftRows) shiftRows_four_times

theorem aesRound_injective (ws : List Word32) (k : Nat) : Function.Injective (aesRound ws k) :=
  (addRoundKey_injective ws k).comp (mixColumns_injective.comp (shiftRows_injective.comp subBytes_injective))

theorem aesRounds_injective (ws : List Word32) (n : Nat) : Function.Injective (aesRounds ws · n) := by
  induction n with
  | zero => exact addRoundKey_injective ws 0
  | succ n ih => exact (aesRound_injective ws (n + 1)).comp ih

theorem aesCipher_injective (ws : List Word32) : Function.Injective (aesCipher ws) :=
  have hlast := (addRoundKey_injective ws 14).comp (shiftRows_injective.comp subBytes_injective)
  (Function.LeftInverse.injective aesLoad_aesStore).comp
    (hlast.comp ((aesRounds_injective ws 13).comp (Function.LeftInverse.injective aesStore_aesLoad)))

/-- Settles O52: the cipher is injective for every key schedule, and an injection of a finite type into itself is a
bijection. -/
theorem blockEncryptionIsABijection : Obligations.BlockEncryptionIsABijection :=
  fun key => Finite.injective_iff_bijective.1 (aesCipher_injective (keyExpansion key))

end Sys2Proof.Machine
end

section
/-! The padding and the message schedule of SHA-256 (spec rules R253, R256). -/

namespace Sys2Proof.Machine

/-! ### Padding -/

theorem shaPadZeros_mod (len : Nat) : (len + 1 + shaPadZeros len) % 64 = 56 := by
  unfold shaPadZeros; omega

/-- There are fewer than 64 zero bytes, so any other fitting number of them is greater by a multiple of 64 (R253). -/
theorem shaPadZeros_le {len y : Nat} (hy : (len + 1 + y) % 64 = 56) : shaPadZeros len ≤ y := by
  unfold shaPadZeros; omega

theorem shaPad_length (msg : List Byte) :
    (shaPad msg).length = msg.length + 1 + shaPadZeros msg.length + 8 := by
  simp only [shaPad, List.length_append, List.length_singleton, List.length_replicate, be_length]

/-- Settles O54: the zero bytes bring the length to 56 modulo 64, and the bit length fills the last block. -/
theorem paddingFillsWholeBlocks : Obligations.PaddingFillsWholeBlocks := by
  intro msg
  have hmod := shaPadZeros_mod msg.length
  refine ⟨shaPadZeros msg.length, rfl, hmod, fun _ => shaPadZeros_le, ?_⟩
  rw [shaPad_length, Nat.add_mod, hmod]

/-! ### The message schedule -/

theorem shaScheduleRev_length (m : List Byte) (n : Nat) : (shaScheduleRev m n).length = n + 16 := by
  induction n with
  | zero => rfl
  | succ n ih => rw [shaScheduleRev, List.length_cons, ih, Nat.add_right_comm]

theorem shaSchedule_length (m : List Byte) : (shaSchedule m).length = 64 := by
  rw [shaSchedule, List.length_reverse, shaScheduleRev_length]

/-- Later steps only add words in front (R256). -/
theorem shaScheduleRev_suffix (m : List Byte) {n k : Nat} (h : n ≤ k) :
    shaScheduleRev m n <:+ shaScheduleRev m k := by
  induction k, h using Nat.le_induction with
  | base => exact List.suffix_rfl
  | succ k _ ih => exact ih.trans (List.suffix_cons ..)

/-- The words after `n` steps, put in order, are the first `n + 16` words of the schedule (R256). -/
theorem shaSchedule_getElem?_eq_reverse (m : List Byte) {n i : Nat} (hn : n ≤ 48) (hi : i < n + 16) :
    (shaSchedule m)[i]? = (shaScheduleRev m n).reverse[i]? := by
  obtain ⟨later, hlater⟩ := List.reverse_prefix.2 (shaScheduleRev_suffix m hn)
  rw [shaSchedule, ← hlater, List.getElem?_append_left (by rwa [List.length_reverse, shaScheduleRev_length])]

/-- Word `t < 16` of the schedule is word `t` of the block (R256). -/
theorem shaSchedule_blockWord (m : List Byte) {t : Nat} (ht : t < 16) :
    (shaSchedule m)[t]? = some (shaBlockWord m t) := by
  rw [shaSchedule_getElem?_eq_reverse m (Nat.zero_le 48) ht, shaScheduleRev, List.reverse_reverse,
    List.getElem?_map, List.getElem?_range ht, Option.map_some]

/-- The word `j` places before the newest after `n` steps is word `n + 15 - j` of the schedule (R256). -/
theorem shaSchedule_getElem? (m : List Byte) {n j : Nat} (hn : n ≤ 48) (hj : j < 16) :
    (shaSchedule m)[n + 15 - j]? = some ((shaScheduleRev m n).getD j 0) := by
  have hlen : j < (shaScheduleRev m n).length := by rw [shaScheduleRev_length]; omega
  have hrev : n + 16 - 1 - (n + 15 - j) = j := by omega
  rw [shaSchedule_getElem?_eq_reverse m hn (by omega), List.getElem?_reverse (by rw [shaScheduleRev_length]; omega),
    shaScheduleRev_length, hrev, List.getElem?_eq_getElem hlen, List.getD_eq_getElem _ _ hlen]

/-- Settles O55: word `n + 16` is what step `n` puts in front of words `n .. n + 15`. -/
theorem messageScheduleRecurrence : Obligations.MessageScheduleRecurrence := by
  refine fun m => ⟨shaSchedule_length m, fun _ => shaSchedule_blockWord m, fun t h16 h64 => ?_⟩
  obtain ⟨n, rfl⟩ := Nat.exists_eq_add_of_le' h16
  have hn : n + 1 ≤ 48 := by omega
  have earlier {j : Nat} (hj : j < 16) := shaSchedule_getElem? m (Nat.le_of_succ_le hn) hj
  exact ⟨_, _, _, _, _, shaSchedule_getElem? m hn (j := 0) (by decide), earlier (j := 1) (by decide),
    earlier (j := 6) (by decide), earlier (j := 14) (by decide), earlier (j := 15) (by decide), rfl⟩

end Sys2Proof.Machine
end

section
/-! Refusals, idling and a reset in the middle of a command (spec rules R270 to R276, R285, R300): the last
response on the ports tells a refusal, which changes nothing, from an answer, and a cut keeps the first data
transfers. -/

namespace Sys2Proof.Machine

/-! ### Refusal or answer, told by the response -/

/-- A response that ends a list of transfers is the one that was sent last. -/
theorem response_eq_of_append {xs ys : List PortEvent} {r r' : Response}
    (h : xs ++ [.resp r] = ys ++ [.resp r']) : r = r' :=
  PortEvent.resp.inj (List.cons.inj (List.append_inj' h rfl).2).1

/-- A refusal sends its status and `value = 0` (R276). -/
theorem response_of_raise {st : Status} {s : State} {before : List PortEvent} {r : Response}
    (h : (raise st s).out = before ++ [.resp r]) : r = ⟨st, 0⟩ :=
  response_eq_of_append h.symm

/-- The response of a command that was carried out is no refusal. -/
theorem Answered.response_not_refusal {s t : State} {before : List PortEvent} {r : Response} (h : Answered s t)
    (hout : t.out = before ++ [.resp r]) : r.status.isRefusal = false := by
  obtain ⟨data, r', h', -, hr'⟩ := h.answer
  rwa [response_eq_of_append (hout.symm.trans h')]

/-- A command word is refused and changes nothing, or is answered after its data (R273, R276). -/
theorem runWord_answer {w : CommandWord} {s t : State} (h : runWord w s = .next t) :
    (∃ st, t = raise st s) ∨ Answered s t := by
  cases hd : decode w with
  | error e => rw [runWord_of_reject hd] at h; cases h; exact .inl ⟨_, rfl⟩
  | ok i =>
    rw [runWord_of_decode hd] at h
    exact (exec_answer h).imp_left fun ⟨st, _, _, ht⟩ => ⟨st, ht⟩

/-- A response with a refusal status is all that the command word did (R276). -/
theorem runWord_eq_raise {w : CommandWord} {s t : State} {before : List PortEvent} {r : Response}
    (h : runWord w s = .next t) (hout : t.out = before ++ [.resp r]) (hr : r.status.isRefusal = true) :
    t = raise r.status s := by
  rcases runWord_answer h with ⟨st, rfl⟩ | ha
  · rw [response_of_raise hout]
  · cases hr.symm.trans (ha.response_not_refusal hout)

/-- Settles O7: a reserved word does not decode (`reservedWord_iff_decode_error`), and is refused for that alone. -/
theorem reservedWordIsRefused : Obligations.ReservedWordIsRefused := by
  intro s w rest hi hw
  obtain ⟨e, he⟩ := reservedWord_iff_decode_error.1 hw
  rw [step_command hi, runWord_of_reject he, raise_eq]

/-- Settles O37: the step runs the word, which did nothing but refuse (`runWord_eq_raise`). -/
theorem refusalChangesNothing : Obligations.RefusalChangesNothing := by
  intro s t w rest before r hi hs hout hr
  rw [step_command hi] at hs
  rw [runWord_eq_raise hs hout hr, raise_eq]

/-! ### Before `INIT` -/

/-- The size check asks for `ready` first (R274, R275). -/
theorem checkSize_of_not_ready {s : State} (h : s.ready = false) (size : Option Nat) :
    checkSize size s = .error .notReady := by
  rw [checkSize, h]; rfl

/-- The target check asks for `ready` first (R274, R275). -/
theorem checkTarget_of_not_ready {s : State} (h : s.ready = false) (w : Whence) (a : Int) :
    checkTarget w a s = .error .notReady := by
  rw [checkTarget, h]; rfl

/-- Before `INIT` every other command is refused with `NotReady` (R274). -/
theorem exec_of_not_ready {i : Instr} {s : State} (h : s.ready = false) (hi : isInit i = false) :
    exec i s = .next (raise .notReady s) := by
  rcases exec_forms i s with hinit | ⟨-, ⟨a, hx⟩ | ⟨a, hx⟩ | ⟨w, a, hx⟩ | rfl⟩
  · cases hi.symm.trans hinit
  · rw [hx, readCommand, checkSize_of_not_ready h]
  · rw [hx, dumpCommand, checkSize_of_not_ready h]
  · rw [hx, seekCommand, checkTarget_of_not_ready h]
  · exact exec_tell_of_not_ready h

/-- Settles O36: without `ready` the checks of each command fail (`exec_of_not_ready`); the one refusal of an `INIT`
is `InvalidArgument` (`exec_answer`). -/
theorem notReadyBeforeInit : Obligations.NotReadyBeforeInit := by
  refine ⟨fun s i h hi => exec_of_not_ready h hi, fun s t i before r hi he hout hr => ?_⟩
  rcases exec_answer he with ⟨st, -, hst, rfl⟩ | ha
  · rw [response_of_raise hout, hst hi] at hr; cases hr
  · have hno := ha.response_not_refusal hout
    rw [hr] at hno; cases hno

/-! ### Every step, and the step that is cut -/

/-- Settles O8: with an empty inbox the step is idle (`step_idle`). -/
theorem idleEngineHoldsItsState : Obligations.IdleEngineHoldsItsState :=
  fun _ h => step_idle h

/-- Settles O11, by what the host does next: idling and reset have their next state at once, and a command word, cut
or not, has one by `runWord_next`. -/
theorem everyStepCompletes : Obligations.EveryStepCompletes := by
  intro s
  match hi : s.inbox with
  | [] => exact ⟨_, step_idle hi⟩
  | .command w :: rest => rw [step_command hi]; exact runWord_next ..
  | .reset :: rest => exact ⟨_, step_reset hi⟩
  | .commandCutByReset w k :: rest =>
    obtain ⟨u, hu⟩ := runWord_next w { s with inbox := rest }
    exact ⟨_, step_cut hi hu⟩

/-- What has left the engine stays sent, with the data transfers that went through before the reset (R300). -/
theorem abandon_out (k : Nat) (s t : State) : (abandon k s t).out = s.out ++ dataSent k s t := rfl

/-- Settles O10: the whole command sends its data and then one response (`runWord_out`), and a cut keeps the first `k`
of the data (`dataSent_of_out`). -/
theorem resetAbandonsTheCommand : Obligations.ResetAbandonsTheCommand := by
  intro s w k rest hi
  obtain ⟨u, hu⟩ := runWord_next w { s with inbox := rest }
  obtain ⟨data, r, hout, hdata⟩ := runWord_out hu
  have hcmd : step { s with inbox := .command w :: rest } = .next u := (step_command rfl).trans hu
  refine ⟨_, u, data, r, hcmd, hout, hdata, step_cut hi hu, ?_, abandon_ready .., rfl⟩
  rw [abandon_out, dataSent_of_out hout hdata]

end Sys2Proof.Machine
end
